-- ==== Sys2Proof/Word.lean ====
section
/-! DEFINITION. The 32-bit word of the machine and its two readings (00_scope.md R4, R8). -/

namespace Sys2Proof

/-- A register, a memory word or an instruction word: 32 bits (R4 `XLEN`, R8). -/
abbrev Word := BitVec 32

/-- The unsigned reading of a word, 0 to 2^32 - 1 (R8). -/
abbrev u32 (w : Word) : Nat := w.toNat

/-- The two's-complement reading of a word, -2^31 to 2^31 - 1 (R8). -/
abbrev s32 (w : Word) : Int := w.toInt

/-- The word congruent to an integer modulo 2^32 (R8). -/
abbrev wrap32 (n : Int) : Word := BitVec.ofInt 32 n

end Sys2Proof
end

