-- ==== Sys2Proof/Syntax.lean ====
section
/-! DEFINITION. The eight instructions, one constructor per row of spec/opcode_table.json (30_encoding.md R57). -/

namespace Sys2Proof

/-- The index of a general register: a 3-bit field, 0 to 7 (R11, R51). -/
abbrev RegIdx := Fin 8

/-- An instruction with its operands, in the order of the spec's assembly notation (R64).
An offset is the signed integer the decoder delivers (R56, R70); its range is checked in WellFormed. -/
inductive Instr where
  /-- opcode 0, R-type (R91) -/
  | add (regA regB rd : RegIdx)
  /-- opcode 1, R-type (R92) -/
  | nand (regA regB rd : RegIdx)
  /-- opcode 2, I-type (R101): `regA` is the base, `regB` the destination -/
  | lw (regA regB : RegIdx) (offset : Int)
  /-- opcode 3, I-type (R102): `regA` is the base, `regB` the source of the data -/
  | sw (regA regB : RegIdx) (offset : Int)
  /-- opcode 4, I-type (R110) -/
  | beq (regA regB : RegIdx) (offset : Int)
  /-- opcode 5, J-type (R111): `regA` holds the target, `regB` receives the link -/
  | jalr (regA regB : RegIdx)
  /-- opcode 6, O-type (R120) -/
  | halt
  /-- opcode 7, O-type (R121) -/
  | noop
deriving DecidableEq, Repr

end Sys2Proof
end

