-- ==== Sys2Proof/WellFormed.lean ====
section
/-! DEFINITION. Which instruction terms an encoding exists for (30_encoding.md R51, R64). -/

namespace Sys2Proof

/-- The 16-bit two's-complement range of an offset: -32768 to 32767 (R51, R56). -/
def offsetInRange (offset : Int) : Bool := decide (-32768 ≤ offset) && decide (offset ≤ 32767)

/-- "`A`, `B`, `D` are 0 to 7; `off` is -32768 to 32767" (R64).
The register indices are 0 to 7 by their type, so only an offset can be out of range. -/
def Instr.wellFormed : Instr → Bool
  | .add _ _ _ => true
  | .nand _ _ _ => true
  | .lw _ _ offset => offsetInRange offset
  | .sw _ _ offset => offsetInRange offset
  | .beq _ _ offset => offsetInRange offset
  | .jalr _ _ => true
  | .halt => true
  | .noop => true

end Sys2Proof
end

