-- ==== Sys2Proof/Decode.lean ====
section
/-! DEFINITION. The instruction decoder (40_decode_and_step.md R70 to R72), the engine's two encoding tests
(R77, R78), and the encoder (30_encoding.md R65). -/

namespace Sys2Proof

/-! ## Bit fields -/

/-- `w[hi:lo]` as R7 defines it. -/
def slice (w : Word) (hi lo : Nat) : Nat := u32 w / 2 ^ lo % 2 ^ (hi - lo + 1)

/-- `sext_16` (R9, R56). -/
def sext16 (v : Nat) : Int := if v < 0x8000 then (v : Int) else (v : Int) - 0x10000

/-! ## The decoder block -/

/-- The eight values of the opcode field (R57). Exactly eight, so R82's unknown opcode has no case (log 15). -/
inductive Opcode where
  | add | nand | lw | sw | beq | jalr | halt | noop
deriving DecidableEq, Repr

/-- The opcode map of R57, from the 3-bit field. -/
def Opcode.ofCode (c : Fin 8) : Opcode :=
  match c with
  | 0 => .add
  | 1 => .nand
  | 2 => .lw
  | 3 => .sw
  | 4 => .beq
  | 5 => .jalr
  | 6 => .halt
  | 7 => .noop

/-- The opcode map of R57, to the 3-bit field. -/
def Opcode.code : Opcode → Nat
  | .add => 0
  | .nand => 1
  | .lw => 2
  | .sw => 3
  | .beq => 4
  | .jalr => 5
  | .halt => 6
  | .noop => 7

/-- The decoder's five outputs (R70): transient, never state (R21). -/
structure DecodedFields where
  opcode : Opcode
  regA : RegIdx
  regB : RegIdx
  rd : RegIdx
  offset : Int
deriving DecidableEq, Repr

/-- The decode function of R71: total, validates nothing (R72). -/
def decodeFields (w : Word) : DecodedFields :=
  { opcode := Opcode.ofCode (Fin.ofNat 8 (slice w 24 22))
    regA := Fin.ofNat 8 (slice w 21 19)
    regB := Fin.ofNat 8 (slice w 18 16)
    rd := Fin.ofNat 8 (slice w 2 0)
    offset := sext16 (slice w 15 0) }

/-! ## The engine's encoding tests -/

/-- `UNUSED_MASK` (R59). Bits 3 and 4 of add and nand are not in it (R60, C8, log 14). -/
def unusedMask : Opcode → Word
  | .add => 0x0000FFE0
  | .nand => 0x0000FFE0
  | .lw => 0x00000000
  | .sw => 0x00000000
  | .beq => 0x00000000
  | .jalr => 0x0000FFFF
  | .halt => 0x003FFFFF
  | .noop => 0x003FFFFF

/-- Why a word is no instruction (R62 classes (b) and (c)). -/
inductive Reject where
  /-- a reserved bit, 25 to 31, is set (R58, R77) -/
  | malformedEncoding
  /-- a bit of the opcode's unused mask is set (R59, R78) -/
  | unusedFieldViolation
deriving DecidableEq, Repr

/-- Dispatch (R79): the opcode picks the instruction and which of the fields it uses. -/
def Instr.ofFields (f : DecodedFields) : Instr :=
  match f.opcode with
  | .add => .add f.regA f.regB f.rd
  | .nand => .nand f.regA f.regB f.rd
  | .lw => .lw f.regA f.regB f.offset
  | .sw => .sw f.regA f.regB f.offset
  | .beq => .beq f.regA f.regB f.offset
  | .jalr => .jalr f.regA f.regB
  | .halt => .halt
  | .noop => .noop

/-- Steps 2 to 4 of the protocol up to dispatch (R75): the reserved-bit test, the fields, the unused-bit test.
The order decides which reason a word with two defects gives (R157; C4, log 14). -/
def decode (w : Word) : Except Reject Instr :=
  if slice w 31 25 ≠ 0 then .error .malformedEncoding
  else if w &&& unusedMask (decodeFields w).opcode ≠ 0 then .error .unusedFieldViolation
  else .ok (Instr.ofFields (decodeFields w))

/-- The host's entry to the decoder: an instruction is one 32-bit word (R50), numbered from bit 0 as the table
numbers it, so the word is `w` itself. -/
def decodeTableWord (nbits w : Nat) : Option Instr :=
  (decode (BitVec.ofNat 32 (w % 2 ^ nbits))).toOption

/-! ## The encoder -/

/-- Which opcode an instruction has (R57). -/
def Instr.opcode : Instr → Opcode
  | .add _ _ _ => .add
  | .nand _ _ _ => .nand
  | .lw _ _ _ => .lw
  | .sw _ _ _ => .sw
  | .beq _ _ _ => .beq
  | .jalr _ _ => .jalr
  | .halt => .halt
  | .noop => .noop

/-- The regA field of the canonical encoding; 0 where the format has none (R55, R65). -/
def Instr.fieldA : Instr → Nat
  | .add a _ _ => a.val
  | .nand a _ _ => a.val
  | .lw a _ _ => a.val
  | .sw a _ _ => a.val
  | .beq a _ _ => a.val
  | .jalr a _ => a.val
  | .halt => 0
  | .noop => 0

/-- The regB field of the canonical encoding; 0 where the format has none (R55, R65). -/
def Instr.fieldB : Instr → Nat
  | .add _ b _ => b.val
  | .nand _ b _ => b.val
  | .lw _ b _ => b.val
  | .sw _ b _ => b.val
  | .beq _ b _ => b.val
  | .jalr _ b => b.val
  | .halt => 0
  | .noop => 0

/-- `low16` of R65. -/
def Instr.low16 : Instr → Nat
  | .add _ _ d => d.val
  | .nand _ _ d => d.val
  | .lw _ _ offset => (offset % 0x10000).toNat
  | .sw _ _ offset => (offset % 0x10000).toNat
  | .beq _ _ offset => (offset % 0x10000).toNat
  | .jalr _ _ => 0
  | .halt => 0
  | .noop => 0

/-- The canonical encoding as a number (R65): `op * 2^22 + A * 2^19 + B * 2^16 + low16`. -/
def Instr.encodeNat (i : Instr) : Nat :=
  i.opcode.code * 2 ^ 22 + i.fieldA * 2 ^ 19 + i.fieldB * 2 ^ 16 + i.low16

/-- The canonical encoding (R65). -/
def encode (i : Instr) : Word := BitVec.ofNat 32 i.encodeNat

/-! ## The legality table -/

/-- The `MASK` column of R61. -/
def Opcode.legalMask : Opcode → Word
  | .add => 0xFFC0FFE0
  | .nand => 0xFFC0FFE0
  | .lw => 0xFFC00000
  | .sw => 0xFFC00000
  | .beq => 0xFFC00000
  | .jalr => 0xFFC0FFFF
  | .halt => 0xFFFFFFFF
  | .noop => 0xFFFFFFFF

/-- The `MATCH` column of R61. -/
def Opcode.legalMatch : Opcode → Word
  | .add => 0x00000000
  | .nand => 0x00400000
  | .lw => 0x00800000
  | .sw => 0x00C00000
  | .beq => 0x01000000
  | .jalr => 0x01400000
  | .halt => 0x01800000
  | .noop => 0x01C00000

end Sys2Proof
end

