-- ==== Sys2Proof/Config.lean ====
section
/-! DEFINITION. What is fixed for one machine: the two parameters of a run and the reset constants (00_scope.md R4).
The spec leaves no value free (R137), so there is no opaque constant here. -/

namespace Sys2Proof

/-- The parameters of a run (R4): "A model takes `MEM_SIZE` and `CEILING` as arguments with the defaults shown". -/
structure Params where
  /-- `MEM_SIZE`, the number of memory words. -/
  memSize : Nat
  /-- `CEILING`, the most instructions one run may execute. -/
  ceiling : Nat
deriving DecidableEq, Repr

/-- The defaults of R4. -/
def Params.default : Params := { memSize := 65536, ceiling := 1000 }

/-- The range R4 gives the parameters: `1 <= MEM_SIZE <= 2^31 - 32768`, any ceiling (decision D18, log 5). -/
abbrev Params.Valid (p : Params) : Prop := 1 ≤ p.memSize ∧ p.memSize ≤ 2 ^ 31 - 32768

/-- `RESET_PC` (R4, R27). -/
def Config.resetPc : Nat := 0

/-- `RESET_REG`, the reset value of every register. DESIGN CHOICE (the spec's decision D1, log 2): unsafe. -/
def Config.resetReg : Word := 0

/-- `RESET_MEM`, what a memory word reads as that neither the image nor a store has written.
DESIGN CHOICE (the spec's decision D2, log 3): unsafe. -/
def Config.resetMem : Word := 0

end Sys2Proof
end

