-- ==== Sys2Proof/Machine/State.lean ====
section
/-! DEFINITION. The machine's state, the reasons a step can end in, and the state after reset (10_state.md). -/

namespace Sys2Proof.Machine

/-- The reasons of a Fatal outcome (60_exceptions.md R150), in the order of their codes. -/
inductive FatalReason where
  /-- code 1: bits 31 to 25 of the fetched word are not all zero (R151) -/
  | malformedEncoding
  /-- code 2: a bit of the opcode's unused mask is set (R152) -/
  | unusedFieldViolation
  /-- code 3: an effective address of lw or sw is below 0 (R153) -/
  | negativeEffectiveAddress
  /-- code 4: the target of a taken beq or of a jalr is below 0 (R154) -/
  | negativeTarget
  /-- code 5: an effective address of lw or sw is `MEM_SIZE` or more (R155; decision D4, log 11) -/
  | addressOutOfRange
  /-- code 6: raised by nothing in this hardware (R82, R156; log 15) -/
  | unknownOpcode
deriving DecidableEq, Repr

/-- The run-control status (R20; held as state by decision D15, log 17). -/
inductive Status where
  | run
  | halted
  | fatal (reason : FatalReason)
deriving DecidableEq, Repr

/-- The memory array (R17, R30): a word address and the word there, addresses strictly rising, no entry equal to
`Config.resetMem`; an address that is not listed reads as `Config.resetMem`.
It holds words, not bytes: R31 "A model must hold memory as an array of Words and must not give it a byte-level view"
(log 1). -/
abbrev Memory := List (Nat × Word)

/-- The six items of R10, and the parameters of the run (`params`, the model's own field, log 5). -/
structure State where
  /-- `x[0]` to `x[7]` (R11, R12) -/
  regs : Vector Word 8
  /-- `Mem` (R17) -/
  mem : Memory
  /-- the word address of the next instruction, a non-negative integer (R14; log 19) -/
  pc : Nat
  /-- the high-water mark of addresses loaded or stored to (R18) -/
  loadedSize : Nat
  /-- the steps that ended Continued or Halted (R19) -/
  instructionsExecuted : Nat
  /-- `RUN`, `HALTED` or `FATAL(reason)` (R20) -/
  status : Status
  /-- `MEM_SIZE` and `CEILING` of this run (R4); no step changes it -/
  params : Params
deriving DecidableEq, Repr

/-- How a step can stop. A Fatal outcome is NOT among these: it is a next state, `Status.fatal` (R158; log 9). -/
inductive Fault where
  /-- Raised by `step` alone, in a state in which no step is enabled: the run has ended (R130, R133).
  Safe: the model stops where the machine has stopped (log 8). -/
  | runEnded
deriving DecidableEq, Repr

/-- Refusals. None is ever given: every word is an instruction or a Fatal (R62). -/
inductive Refusal where
  /-- Kept for the interface: an instruction without a meaning. No arm of `exec` gives it. Safe. -/
  | notModelled (mnemonic : String)
deriving DecidableEq, Repr

/-- The state after reset (R26) for the default parameters and the empty image, which R181 allows: nothing is
loaded, so `loadedSize` is 0 (log 6). Register and memory contents: log 2 and log 3. -/
def State.reset : State :=
  { regs := Vector.replicate 8 Config.resetReg
    mem := []
    pc := Config.resetPc
    loadedSize := 0
    instructionsExecuted := 0
    status := .run
    params := Params.default }

end Sys2Proof.Machine
end

