-- ==== Sys2Proof/Machine/Ops.lean ====
section
/-! DEFINITION. The named operations over memory and registers, the commit of a step and the Fatal entry, each
written once and used by every meaning. -/

namespace Sys2Proof.Machine

/-! ## Memory -/

/-- The word at an address. -/
def Memory.read : Memory → Nat → Word
  | [], _ => Config.resetMem
  | (b, u) :: m, a => if a = b then u else Memory.read m a

/-- A word put at an address, the canonical form kept: a word equal to `Config.resetMem` is not listed. -/
def Memory.write : Memory → Nat → Word → Memory
  | [], a, v => if v = Config.resetMem then [] else [(a, v)]
  | (b, u) :: m, a, v =>
    if a < b then (if v = Config.resetMem then (b, u) :: m else (a, v) :: (b, u) :: m)
    else if a = b then (if v = Config.resetMem then m else (a, v) :: m)
    else (b, u) :: Memory.write m a v

/-- The canonical form: addresses strictly rising, and no entry equal to what an unlisted address reads as. -/
abbrev Memory.wf (m : Memory) : Prop :=
  m.Pairwise (fun p q => p.1 < q.1) ∧ ∀ p ∈ m, p.2 ≠ Config.resetMem

/-- `MemRead(a, 1)` (20_memory.md R34). -/
def State.memRead (s : State) (a : Nat) : Word := Memory.read s.mem a

/-- `MemWrite(a, 1, v)` (R35): the word, and the high-water mark. -/
def State.memWrite (s : State) (a : Nat) (v : Word) : State :=
  { s with mem := Memory.write s.mem a v, loadedSize := max s.loadedSize (a + 1) }

/-! ## Registers -/

/-- `x[i]` (R9). No register is hardwired (R12). -/
def State.readReg (s : State) (i : RegIdx) : Word := s.regs[i.val]

/-- `x[i] <- v` (R9). Register 0 takes the write like any other (R12). -/
def State.writeReg (s : State) (i : RegIdx) (v : Word) : State :=
  { s with regs := s.regs.set i.val v }

/-! ## The end of a step -/

/-- What every committed step does (40_decode_and_step.md R75 step 5): the new pc, and one more instruction
executed (R81). -/
def State.commit (s : State) (newPc : Nat) : State :=
  { s with pc := newPc, instructionsExecuted := s.instructionsExecuted + 1 }

/-- Fatal entry (60_exceptions.md R158): the status takes the reason and nothing else changes.
There is no handler, no saved pc and no return from it (R160). -/
def State.fatalEntry (s : State) (r : FatalReason) : State := { s with status := .fatal r }

/-- A step that raises a Fatal: its next state is the Fatal entry (log 9). -/
def raiseFatal (r : FatalReason) (s : State) : Host.Outcome State Fault Refusal :=
  .next (s.fatalEntry r)

/-- Test first, write after (R80): a failed test raises its Fatal on the state as it was. -/
def whenOk {α : Type} (test : Except FatalReason α) (s : State) (effect : α → State) :
    Host.Outcome State Fault Refusal :=
  match test with
  | .error r => raiseFatal r s
  | .ok a => .next (effect a)

/-- The Fatal reason of a word that is no instruction (R151, R152). -/
def rejectReason : Reject → FatalReason
  | .malformedEncoding => .malformedEncoding
  | .unusedFieldViolation => .unusedFieldViolation

/-- The numeric code of a reason (R150). The numbers are the spec's labels (D9, log 16). -/
def FatalReason.code : FatalReason → Nat
  | .malformedEncoding => 1
  | .unusedFieldViolation => 2
  | .negativeEffectiveAddress => 3
  | .negativeTarget => 4
  | .addressOutOfRange => 5
  | .unknownOpcode => 6

end Sys2Proof.Machine
end

