-- ==== Sys2Proof/Machine/Flags.lean ====
section
/-! DEFINITION. The machine has no flags (10_state.md R16): the ALU's two results and the one condition, which beq
computes, uses and discards (R110), are all there is to compute. -/

namespace Sys2Proof.Machine

/-- The sum, wrapped to 32 bits, with no trap and no carry (41_rtype_add_nand.md R91, R93). -/
def aluAdd (a b : Word) : Word := wrap32 (s32 a + s32 b)

/-- NOT of AND on all 32 bits (R92). -/
def aluNand (a b : Word) : Word := ~~~(a &&& b)

/-- beq's comparison: equality of the two 32-bit words (R93, R110). -/
def regsEqual (s : State) (regA regB : RegIdx) : Bool := s.readReg regA == s.readReg regB

end Sys2Proof.Machine
end

