-- ==== Sys2Proof/Machine/Operands.lean ====
section
/-! DEFINITION. The operand forms: the effective address of lw and sw with its check, and the targets of beq and
jalr with theirs. Both adders give exact integers that are tested and never wrapped (41_rtype_add_nand.md R94). -/

namespace Sys2Proof.Machine

/-- The effective address, "base-register value plus signed offset" (R100), as an exact integer (D5, log 12). -/
def effectiveAddress (s : State) (regA : RegIdx) (offset : Int) : Int :=
  s32 (s.readReg regA) + offset

/-- The address check of a data access (20_memory.md R36; its second line is decision D4, log 11). -/
def checkAddress (memSize : Nat) (ea : Int) : Except FatalReason Nat :=
  if ea < 0 then .error .negativeEffectiveAddress
  else if (memSize : Int) ≤ ea then .error .addressOutOfRange
  else .ok ea.toNat

/-- The checked address of lw and sw (R101, R102). -/
def dataAddress (s : State) (regA : RegIdx) (offset : Int) : Except FatalReason Nat :=
  checkAddress s.params.memSize (effectiveAddress s regA offset)

/-- The test of a control-transfer target (R110, R111): only a negative one is Fatal (R113). -/
def checkTarget (t : Int) : Except FatalReason Nat :=
  if t < 0 then .error .negativeTarget else .ok t.toNat

/-- The target of a taken beq, relative to the next instruction (R110). -/
def branchTarget (s : State) (offset : Int) : Int := (s.pc : Int) + 1 + offset

/-- The link value of jalr, `wrap32(pc + 1)` (R111). -/
def linkValue (s : State) : Word := wrap32 ((s.pc : Int) + 1)

/-- The target of jalr (R111): the link is written first, so with equal registers it is `pc + 1`
(decision D8, log 13). -/
def jumpTarget (s : State) (regA regB : RegIdx) : Int :=
  if regA = regB then (s.pc : Int) + 1 else s32 (s.readReg regA)

end Sys2Proof.Machine
end

