-- ==== Sys2Proof/Machine/BranchJump.lean ====
section
/-! DEFINITION. The control transfers beq and jalr (43_branch_jalr.md). No delay slot (R112). -/

namespace Sys2Proof.Machine

/-- `beq A B off` (R110): the target is tested only when the branch is taken. -/
def execBeq (regA regB : RegIdx) (offset : Int) (s : State) : Host.Outcome State Fault Refusal :=
  if regsEqual s regA regB then
    whenOk (checkTarget (branchTarget s offset)) s fun t => s.commit t
  else .next (s.commit (s.pc + 1))

/-- `jalr A B` (R111): the final target is tested before the link is written (C2, log 13). -/
def execJalr (regA regB : RegIdx) (s : State) : Host.Outcome State Fault Refusal :=
  whenOk (checkTarget (jumpTarget s regA regB)) s fun t => (s.writeReg regB (linkValue s)).commit t

end Sys2Proof.Machine
end

