-- ==== Sys2Proof/Machine/HaltNoop.lean ====
section
/-! DEFINITION. halt and noop (44_halt_noop.md). -/

namespace Sys2Proof.Machine

/-- `halt` (R120): "pc+1, then signal Halted"; it counts as an executed instruction. -/
def execHalt (s : State) : Host.Outcome State Fault Refusal :=
  .next { s.commit (s.pc + 1) with status := .halted }

/-- `noop` (R121). -/
def execNoop (s : State) : Host.Outcome State Fault Refusal :=
  .next (s.commit (s.pc + 1))

end Sys2Proof.Machine
end

