-- ==== Sys2Proof/Machine/LoadStore.lean ====
section
/-! DEFINITION. The memory instructions lw and sw (42_load_store.md). -/

namespace Sys2Proof.Machine

/-- `lw A B off` (R101): the address is checked and the word read before `x[B]` is written. -/
def execLw (regA regB : RegIdx) (offset : Int) (s : State) : Host.Outcome State Fault Refusal :=
  whenOk (dataAddress s regA offset) s fun a => (s.writeReg regB (s.memRead a)).commit (s.pc + 1)

/-- `sw A B off` (R102): `x[B]` is the data. -/
def execSw (regA regB : RegIdx) (offset : Int) (s : State) : Host.Outcome State Fault Refusal :=
  whenOk (dataAddress s regA offset) s fun a => (s.memWrite a (s.readReg regB)).commit (s.pc + 1)

end Sys2Proof.Machine
end

