-- ==== Sys2Proof/Machine/RType.lean ====
section
/-! DEFINITION. The R-type instructions add and nand (41_rtype_add_nand.md). -/

namespace Sys2Proof.Machine

/-- `add A B D` (R91). -/
def execAdd (regA regB rd : RegIdx) (s : State) : Host.Outcome State Fault Refusal :=
  .next ((s.writeReg rd (aluAdd (s.readReg regA) (s.readReg regB))).commit (s.pc + 1))

/-- `nand A B D` (R92). -/
def execNand (regA regB rd : RegIdx) (s : State) : Host.Outcome State Fault Refusal :=
  .next ((s.writeReg rd (aluNand (s.readReg regA) (s.readReg regB))).commit (s.pc + 1))

end Sys2Proof.Machine
end

