-- ==== Sys2Proof/Machine/Dispatch.lean ====
section
/-! DEFINITION. Dispatch (40_decode_and_step.md R79): one arm per instruction. -/

namespace Sys2Proof.Machine

/-- The effect of one instruction on a state, pc and instruction count included (R75 steps 4 and 5).
It does not look at the gate: `step` does (log 20). -/
def exec (i : Instr) (s : State) : Host.Outcome State Fault Refusal :=
  match i with
  | .add regA regB rd => Sys2Proof.Machine.execAdd regA regB rd s
  | .nand regA regB rd => Sys2Proof.Machine.execNand regA regB rd s
  | .lw regA regB offset => Sys2Proof.Machine.execLw regA regB offset s
  | .sw regA regB offset => Sys2Proof.Machine.execSw regA regB offset s
  | .beq regA regB offset => Sys2Proof.Machine.execBeq regA regB offset s
  | .jalr regA regB => Sys2Proof.Machine.execJalr regA regB s
  | .halt => Sys2Proof.Machine.execHalt s
  | .noop => Sys2Proof.Machine.execNoop s

end Sys2Proof.Machine
end

