-- ==== Sys2Proof/Machine/Execute.lean ====
section
/-! DEFINITION. What a step does with the word it fetched (40_decode_and_step.md R75 steps 2 to 5). -/

namespace Sys2Proof.Machine

/-- The encoding tests, then the instruction (R75): a word that is no instruction raises its Fatal (R62). -/
def execWord (w : Word) (s : State) : Host.Outcome State Fault Refusal :=
  match decode w with
  | .error e => raiseFatal (rejectReason e) s
  | .ok i => exec i s

end Sys2Proof.Machine
end

