-- ==== Sys2Proof/Machine/RunControl.lean ====
section
/-! DEFINITION. The gate of a step and the fetch (45_run_control.md R130, 40_decode_and_step.md R76). -/

namespace Sys2Proof.Machine

/-- The gate (R130), the ceiling compared with `<` (C1, D6, log 7). -/
abbrev State.StepEnabled (s : State) : Prop :=
  s.status = .run ∧ s.pc < s.loadedSize ∧ s.instructionsExecuted < s.params.ceiling

/-- The fetch (R76): the word at pc, read from the memory as the previous step left it (R42). -/
def fetchWord (s : State) : Word := s.memRead s.pc

end Sys2Proof.Machine
end

