-- ==== Sys2Proof/Machine/Step.lean ====
section
/-! DEFINITION. One step of the machine, and the placing of a word where it fetches next. -/

namespace Sys2Proof.Machine

/-- One step (40_decode_and_step.md R73, R75), made when the gate holds (45_run_control.md R130); where it does
not hold the run has ended and there is no step (R133, log 8). -/
def step (s : State) : Host.Outcome State Fault Refusal :=
  if s.StepEnabled then execWord (fetchWord s) s else .fault .runEnded

/-- The state with one instruction word placed where `step` fetches next, and the gate open for it: the image
interface of R181 seen from outside a run (log 6). The word is stored at pc, `loadedSize` covers it, the status is
`RUN`, and an exhausted instruction count starts again at 0. -/
def State.withFetchWord (s : State) (nbits w : Nat) : State :=
  { s.memWrite s.pc (BitVec.ofNat 32 (w % 2 ^ nbits)) with
    status := .run
    instructionsExecuted :=
      if s.instructionsExecuted < s.params.ceiling then s.instructionsExecuted else 0 }

end Sys2Proof.Machine
end

