-- ==== Sys2Proof/Machine/HostInterface.lean ====
section
/-! DEFINITION. The four logical interfaces of the core (00_scope.md R6) and the run they frame
(45_run_control.md R131, R133, R134). -/

namespace Sys2Proof.Machine

/-! ## IMAGE -/

/-- The image written to consecutive addresses from `a` (70_reset_and_hazards.md R181). -/
def Memory.loadFrom (m : Memory) (a : Nat) : List Word → Memory
  | [] => m
  | w :: ws => Memory.loadFrom (Memory.write m a w) (a + 1) ws

/-- Reset and image load (R180, R181, 10_state.md R26): a fresh machine with the given parameters.
The image is meant to fit, `n <= MEM_SIZE` (D12, log 6). -/
def State.boot (p : Params) (image : List Word) : State :=
  { State.reset with
    mem := Memory.loadFrom State.reset.mem 0 image
    loadedSize := image.length
    params := p }

/-! ## The run -/

/-- At most `n` steps, made while the gate holds (R131): the state the run is in after them.
Once the gate is false the state is final (R133). -/
def runFor : Nat → State → State
  | 0, s => s
  | n + 1, s =>
    match step s with
    | .next t => runFor n t
    | .fault _ => s
    | .refused _ => s

/-- The final state of a run: `CEILING` steps are always enough (R135). -/
def runToEnd (s : State) : State := runFor s.params.ceiling s

/-- The outcome of the step that led to a state (R73, R74). -/
inductive StepOutcome where
  | continued
  | halted
  | fatal (reason : FatalReason)
deriving DecidableEq, Repr

/-- R74: the status is the memory of the step outcome (R20). -/
def State.outcome (s : State) : StepOutcome :=
  match s.status with
  | .run => .continued
  | .halted => .halted
  | .fatal r => .fatal r

/-- PC exhaustion (R134): not an error. -/
abbrev State.PcExhausted (s : State) : Prop := s.status = .run ∧ s.loadedSize ≤ s.pc

/-- The ceiling is reached (R134): not an error. It may hold together with PC exhaustion. -/
abbrev State.CeilingReached (s : State) : Prop :=
  s.status = .run ∧ s.params.ceiling ≤ s.instructionsExecuted

/-! ## REPORT, FATAL and TRACE -/

/-- `RunReport` (R136). -/
structure RunReport where
  instructionsExecuted : Nat
  haltedNormally : Bool
deriving DecidableEq, Repr

/-- What the core presents at the end of a run (R136); read from any state, meant for a final one (log 18). -/
def State.report (s : State) : RunReport :=
  { instructionsExecuted := s.instructionsExecuted
    haltedNormally := decide (s.status = .halted) }

/-- The FATAL interface (R6, R150): the reason, if the run ended in a Fatal. -/
def State.fatalReason (s : State) : Option FatalReason :=
  match s.status with
  | .run => none
  | .halted => none
  | .fatal r => some r

/-- What the trace shows (R138). -/
structure TraceView where
  pc : Nat
  memory : List Word
  regs : List Word
deriving DecidableEq, Repr

/-- The read-only view between steps (R138): pc, `Mem[0 .. loadedSize-1]` and the eight registers. -/
def State.trace (s : State) : TraceView :=
  { pc := s.pc
    memory := (List.range s.loadedSize).map s.memRead
    regs := s.regs.toList }

end Sys2Proof.Machine
end

