-- ==== Sys2Proof/Safety.lean ====
section
/-! DEFINITION. The terms the statements use: the invariant of reachable states, what an instruction may read and
write, and the renaming of registers. -/

namespace Sys2Proof.Machine

/-- The run is not ended by a Fatal (R150): what counts as a safe state. -/
abbrev State.NotFatal (s : State) : Prop := ∀ r, s.status ≠ .fatal r

/-- The image fits the memory, and the parameters are in range: the preconditions of a launch (R4, R181; D12, log 6). -/
abbrev ImageFits (p : Params) (image : List Word) : Prop := p.Valid ∧ image.length ≤ p.memSize

/-- What holds in every reachable state: the list of R24, and the model's memory form. -/
structure State.Inv (s : State) : Prop where
  /-- the range of R4 -/
  paramsValid : s.params.Valid
  /-- equal memories are equal data -/
  memCanonical : Memory.wf s.mem
  /-- a word at or above the high-water mark holds its reset value (R18, R34) -/
  memBelowLoaded : ∀ e ∈ s.mem, e.1 < s.loadedSize
  /-- `loadedSize <= MEM_SIZE` -/
  loadedFits : s.loadedSize ≤ s.params.memSize
  /-- `pc <= 2^31 - 1` (R14) -/
  pcRange : s.pc ≤ 2 ^ 31 - 1
  /-- `instructionsExecuted <= CEILING` -/
  countBounded : s.instructionsExecuted ≤ s.params.ceiling
  /-- `status = HALTED` implies `instructionsExecuted >= 1` -/
  haltedCounted : s.status = .halted → 1 ≤ s.instructionsExecuted
  /-- `status = FATAL(r)` implies `pc < loadedSize`, and pc is the address of the faulting instruction: taken up
  again from `RUN`, the word there raises this very Fatal -/
  fatalAtPc : ∀ r, s.status = .fatal r →
    s.pc < s.loadedSize ∧ execWord (fetchWord s) { s with status := .run } = .next s

end Sys2Proof.Machine

namespace Sys2Proof

open Sys2Proof.Machine

/-- The registers an instruction reads (R13). -/
def Instr.readsRegs : Instr → List RegIdx
  | .add a b _ => [a, b]
  | .nand a b _ => [a, b]
  | .lw a _ _ => [a]
  | .sw a b _ => [a, b]
  | .beq a b _ => [a, b]
  | .jalr a _ => [a]
  | .halt => []
  | .noop => []

/-- The register an instruction writes, if any (R13). -/
def Instr.writesReg : Instr → Option RegIdx
  | .add _ _ d => some d
  | .nand _ _ d => some d
  | .lw _ b _ => some b
  | .sw _ _ _ => none
  | .beq _ _ _ => none
  | .jalr _ b => some b
  | .halt => none
  | .noop => none

/-- An instruction with its registers renamed. -/
def Instr.renameRegs (σ : Equiv.Perm RegIdx) : Instr → Instr
  | .add a b d => .add (σ a) (σ b) (σ d)
  | .nand a b d => .nand (σ a) (σ b) (σ d)
  | .lw a b offset => .lw (σ a) (σ b) offset
  | .sw a b offset => .sw (σ a) (σ b) offset
  | .beq a b offset => .beq (σ a) (σ b) offset
  | .jalr a b => .jalr (σ a) (σ b)
  | .halt => .halt
  | .noop => .noop

/-- A state whose register `σ r` holds what register `r` held. -/
def Machine.State.renameRegs (σ : Equiv.Perm RegIdx) (s : State) : State :=
  { s with regs := Vector.ofFn fun r => s.readReg (σ.symm r) }

end Sys2Proof
end

