-- ==== Sys2Proof/Certificates/Slice0/Obligations.lean ====
section
/-! DEFINITION. The statements for the provers. Numbers R<n> are the rules of spec/, D<n> and C<n> its decisions and
conflicts, "log <n>" is notes/assumptions/<n>.md. -/

open Sys2Proof Sys2Proof.Machine

/-! ## Encoding -/

/-- R65 with R71: the canonical encoding is the sum of its shifted fields, fits 25 bits, is non-negative as a signed
word, and decodes back to the instruction, for every well-formed instruction. -/
def Obligations.EncodeIsCanonicalAndDecodesBack : Prop :=
  ∀ i : Instr, i.wellFormed = true →
    u32 (encode i) = i.opcode.code * 2 ^ 22 + i.fieldA * 2 ^ 19 + i.fieldB * 2 ^ 16 + i.low16 ∧
    u32 (encode i) < 2 ^ 25 ∧ 0 ≤ s32 (encode i) ∧ decode (encode i) = .ok i

/-- R60, R61, R65: a word that decodes gives a well-formed instruction, and is that instruction's canonical encoding
but for the two unchecked bits of add and nand. -/
def Obligations.DecodedWordIsItsCanonicalEncoding : Prop :=
  ∀ (w : Word) (i : Instr), decode w = .ok i →
    i.wellFormed = true ∧
    encode i = (if i.opcode = .add ∨ i.opcode = .nand then w &&& 0xFFFFFFE7 else w)

/-- R61: the engine's two tests and dispatch accept exactly the words of the match-and-mask table. -/
def Obligations.LegalWordsAreTheMatchTable : Prop :=
  ∀ (w : Word) (op : Opcode),
    (∃ i, decode w = .ok i ∧ i.opcode = op) ↔ w &&& op.legalMask = op.legalMatch

/-- R62: every word is in exactly one of three classes (the counts of words are not stated here). -/
def Obligations.EveryWordIsLegalOrFatal : Prop :=
  ∀ w : Word,
    (decode w = .error .malformedEncoding ↔ slice w 31 25 ≠ 0) ∧
    (decode w = .error .unusedFieldViolation ↔
      slice w 31 25 = 0 ∧ w &&& unusedMask (decodeFields w).opcode ≠ 0) ∧
    ((∃ i, decode w = .ok i) ↔ ∃! op : Opcode, w &&& op.legalMask = op.legalMatch)

/-- R56: the offset output is the low 16 bits read in two's complement, for every word. -/
def Obligations.OffsetFieldIsSignExtended : Prop :=
  ∀ w : Word,
    (slice w 15 0 < 0x8000 → (decodeFields w).offset = (slice w 15 0 : Int)) ∧
    (0x8000 ≤ slice w 15 0 → (decodeFields w).offset = (slice w 15 0 : Int) - 0x10000) ∧
    -32768 ≤ (decodeFields w).offset ∧ (decodeFields w).offset ≤ 32767 ∧
    (decodeFields w).offset = (w.extractLsb' 0 16).toInt

/-- R60: two words that differ only in bits 4 and 3 and have the opcode add or nand are one instruction; clearing the
bits is one case; the canonical encoding has them clear. -/
def Obligations.UncheckedBitsAreIgnored : Prop :=
  (∀ w w' : Word, w &&& 0xFFFFFFE7 = w' &&& 0xFFFFFFE7 → slice w 24 22 = 0 ∨ slice w 24 22 = 1 →
    decode w = decode w') ∧
  (∀ w : Word, slice w 24 22 = 0 ∨ slice w 24 22 = 1 → slice w 31 25 = 0 → slice w 15 5 = 0 →
    (∃ i, decode w = .ok i) ∧ ∀ s : State, execWord w s = execWord (w &&& 0xFFFFFFE7) s) ∧
  (∀ a b d : RegIdx, slice (encode (.add a b d)) 4 3 = 0 ∧ slice (encode (.nand a b d)) 4 3 = 0)

/-- A few words of the spec's encodings (30_encoding.md R53 to R55, R65): a sanity statement. -/
def Obligations.SpecEncodingsDecode : Prop :=
  decode 0x000A0003 = .ok (.add 1 2 3) ∧ decode 0x007F0007 = .ok (.nand 7 7 7) ∧
  decode 0x00810007 = .ok (.lw 0 1 7) ∧ decode 0x00DDFFFC = .ok (.sw 3 5 (-4)) ∧
  decode 0x0100FFFF = .ok (.beq 0 0 (-1)) ∧ decode 0x01670000 = .ok (.jalr 4 7) ∧
  decode 0x01800000 = .ok .halt ∧ decode 0x01C00000 = .ok .noop

/-! ## The step -/

/-- R75, R76, R79: where the gate holds and the word at pc decodes to `i`, the step is `exec i`, nothing added. -/
def Obligations.StepRunsTheDecodedInstruction : Prop :=
  ∀ (s : State) (i : Instr), s.StepEnabled → decode (s.memRead s.pc) = .ok i → step s = exec i s

/-- R130: a step is made exactly when the three conjuncts hold; otherwise the run has ended and `step` stops (the stop
is the model's choice, log 8; the ceiling's `<` is the spec's decision D6, log 7). A step never refuses. -/
def Obligations.StepIsMadeExactlyWhenTheGateHolds : Prop :=
  ∀ s : State,
    ((∃ t, step s = .next t) ↔
      s.status = .run ∧ s.pc < s.loadedSize ∧ s.instructionsExecuted < s.params.ceiling) ∧
    (step s = .fault .runEnded ↔
      ¬ (s.status = .run ∧ s.pc < s.loadedSize ∧ s.instructionsExecuted < s.params.ceiling)) ∧
    ∀ r, step s ≠ .refused r

/-- R151, R77 with R80, R158: with any of bits 31 to 25 set the step ends Fatal(MalformedEncoding) whatever the
opcode, and only then; nothing but the status changes. That the instruction count and pc stay is the spec's decision
D7 (log 10). That a Fatal is a next state is the model's choice (log 9). -/
def Obligations.ReservedBitsAreFatal : Prop :=
  ∀ s : State, s.StepEnabled →
    (step s = .next { s with status := .fatal .malformedEncoding } ↔ slice (s.memRead s.pc) 31 25 ≠ 0)

/-- R152: the condition of Fatal(UnusedFieldViolation), opcode by opcode; lw, sw and beq (2, 3, 4) cannot raise it,
and bits 4 and 3 of add and nand do not. Nothing but the status changes (R158); that the instruction count and pc stay
is the spec's decision D7 (log 10). That a Fatal is a next state is the model's choice (log 9). -/
def Obligations.UnusedBitsAreFatal : Prop :=
  ∀ s : State, s.StepEnabled →
    (step s = .next { s with status := .fatal .unusedFieldViolation } ↔
      slice (s.memRead s.pc) 31 25 = 0 ∧
        (((slice (s.memRead s.pc) 24 22 = 0 ∨ slice (s.memRead s.pc) 24 22 = 1) ∧
            slice (s.memRead s.pc) 15 5 ≠ 0) ∨
          (slice (s.memRead s.pc) 24 22 = 5 ∧ slice (s.memRead s.pc) 15 0 ≠ 0) ∨
          ((slice (s.memRead s.pc) 24 22 = 6 ∨ slice (s.memRead s.pc) 24 22 = 7) ∧
            slice (s.memRead s.pc) 21 0 ≠ 0)))

/-- R158, R80: a step that ends Fatal changes the status and nothing else, and the run has ended. That the instruction
count stays is the spec's decision D7 (log 10). That the Fatal entry is a next state is the model's choice (log 9),
and so is the answer runEnded in the state after it (log 8). -/
def Obligations.FatalStepsChangeOnlyTheStatus : Prop :=
  ∀ (s t : State) (r : FatalReason), step s = .next t → t.status = .fatal r →
    t = { s with status := .fatal r } ∧ step t = .fault .runEnded

/-- R156, R82: no state and no word produces UnknownOpcode (decision D10, log 15). That a Fatal is a next state is the
model's choice (log 9). -/
def Obligations.UnknownOpcodeIsNeverRaised : Prop :=
  ∀ s t : State, step s = .next t → t.status ≠ .fatal .unknownOpcode

/-- R153, R155, R157: which instruction raises an address Fatal, and when. The second reason is the spec's decision D4
(log 11), the exact sum its decision D5 (log 12). That a Fatal is a next state is the model's choice (log 9). -/
def Obligations.AddressFatalsAreRaisedByLoadsAndStoresOutOfRange : Prop :=
  ∀ (i : Instr) (s : State), s.status = .run →
    ((∃ t, exec i s = .next t ∧ t.status = .fatal .negativeEffectiveAddress) ↔
      ∃ a b offset, (i = .lw a b offset ∨ i = .sw a b offset) ∧ s32 (s.readReg a) + offset < 0) ∧
    ((∃ t, exec i s = .next t ∧ t.status = .fatal .addressOutOfRange) ↔
      ∃ a b offset, (i = .lw a b offset ∨ i = .sw a b offset) ∧
        0 ≤ s32 (s.readReg a) + offset ∧ (s.params.memSize : Int) ≤ s32 (s.readReg a) + offset)

/-- R154: the condition of Fatal(NegativeTarget). That a jalr with equal registers never raises it is the spec's
decision D8 (log 13); the exact, unwrapped branch sum: log 12. That a Fatal is a next state is the model's choice (log
9). -/
def Obligations.NegativeTargetsAreFatal : Prop :=
  ∀ (i : Instr) (s : State), s.status = .run →
    ((∃ t, exec i s = .next t ∧ t.status = .fatal .negativeTarget) ↔
      (∃ a b offset, i = .beq a b offset ∧ s.readReg a = s.readReg b ∧ (s.pc : Int) + 1 + offset < 0) ∨
      (∃ a b, i = .jalr a b ∧ a ≠ b ∧ s32 (s.readReg a) < 0))

/-- R81, R19: a step that ends Continued or Halted adds one to the count, one that ends Fatal adds nothing (the latter
is the spec's decision D7, log 10). That a Fatal is a next state is the model's choice (log 9). -/
def Obligations.CompletedStepsAreCounted : Prop :=
  ∀ s t : State, step s = .next t →
    (t.NotFatal → t.instructionsExecuted = s.instructionsExecuted + 1) ∧
    (¬ t.NotFatal → t.instructionsExecuted = s.instructionsExecuted)

/-- R120, R74: among the steps that are made, those that fetch the one legal halt word, and only those, leave the
status HALTED. -/
def Obligations.OnlyTheHaltWordHalts : Prop :=
  ∀ s t : State, step s = .next t → (t.status = .halted ↔ s.memRead s.pc = 0x01800000)

/-! ## The instructions -/

/-- R91: the legal words of add, the Fatal of a word with a bit of 15 to 5 set, and the effect with its frame, for
every choice of the three registers (equal ones and register 0 among them). That the count and pc stay on the Fatal is
the spec's decision D7 (R158, log 10). That a Fatal is a next state is the model's choice (log 9). -/
def Obligations.AddWritesTheWrappedSum : Prop :=
  (∀ w : Word, (∃ a b d, decode w = .ok (.add a b d)) ↔ w &&& 0xFFC0FFE0 = 0) ∧
  (∀ s : State, s.StepEnabled → slice (s.memRead s.pc) 31 25 = 0 → slice (s.memRead s.pc) 24 22 = 0 →
    step s = if slice (s.memRead s.pc) 15 5 ≠ 0 then .next { s with status := .fatal .unusedFieldViolation }
      else exec (.add (Fin.ofNat 8 (slice (s.memRead s.pc) 21 19)) (Fin.ofNat 8 (slice (s.memRead s.pc) 18 16))
        (Fin.ofNat 8 (slice (s.memRead s.pc) 2 0))) s) ∧
  (∀ (s : State) (a b d : RegIdx), ∃ t, exec (.add a b d) s = .next t ∧
    t.readReg d = wrap32 (s32 (s.readReg a) + s32 (s.readReg b)) ∧
    (∀ r, r ≠ d → t.readReg r = s.readReg r) ∧ t.pc = s.pc + 1 ∧
    (∀ x, t.memRead x = s.memRead x) ∧ t.mem = s.mem ∧ t.loadedSize = s.loadedSize ∧
    t.instructionsExecuted = s.instructionsExecuted + 1 ∧ t.status = s.status ∧ t.params = s.params)

/-- R92: the same for nand; the signed value is stated too. On the Fatal as for add: decision D7 (R158, log 10). That
a Fatal is a next state is the model's choice (log 9). -/
def Obligations.NandWritesTheNegatedConjunction : Prop :=
  (∀ w : Word, (∃ a b d, decode w = .ok (.nand a b d)) ↔ w &&& 0xFFC0FFE0 = 0x00400000) ∧
  (∀ s : State, s.StepEnabled → slice (s.memRead s.pc) 31 25 = 0 → slice (s.memRead s.pc) 24 22 = 1 →
    step s = if slice (s.memRead s.pc) 15 5 ≠ 0 then .next { s with status := .fatal .unusedFieldViolation }
      else exec (.nand (Fin.ofNat 8 (slice (s.memRead s.pc) 21 19)) (Fin.ofNat 8 (slice (s.memRead s.pc) 18 16))
        (Fin.ofNat 8 (slice (s.memRead s.pc) 2 0))) s) ∧
  (∀ (s : State) (a b d : RegIdx), ∃ t, exec (.nand a b d) s = .next t ∧
    t.readReg d = ~~~(s.readReg a &&& s.readReg b) ∧
    s32 (t.readReg d) = -(s32 (s.readReg a &&& s.readReg b)) - 1 ∧
    (∀ r, r ≠ d → t.readReg r = s.readReg r) ∧ t.pc = s.pc + 1 ∧
    (∀ x, t.memRead x = s.memRead x) ∧ t.mem = s.mem ∧ t.loadedSize = s.loadedSize ∧
    t.instructionsExecuted = s.instructionsExecuted + 1 ∧ t.status = s.status ∧ t.params = s.params)

/-- R101: lw over the whole range of its exact effective address: the two Fatals, and the load with its frame. The
Fatal at `MEM_SIZE` and above is the spec's decision D4 (log 11), the exact sum its decision D5 (log 12), that the
count and pc stay on a Fatal its decision D7 (R158, log 10). That a Fatal is a next state is the model's choice (log
9). -/
def Obligations.LoadReadsTheAddressedWord : Prop :=
  (∀ w : Word, (∃ a b offset, decode w = .ok (.lw a b offset)) ↔ w &&& 0xFFC00000 = 0x00800000) ∧
  (∀ (s : State) (a b : RegIdx) (offset : Int), s32 (s.readReg a) + offset < 0 →
    exec (.lw a b offset) s = .next { s with status := .fatal .negativeEffectiveAddress }) ∧
  (∀ (s : State) (a b : RegIdx) (offset : Int), 0 ≤ s32 (s.readReg a) + offset →
    (s.params.memSize : Int) ≤ s32 (s.readReg a) + offset →
    exec (.lw a b offset) s = .next { s with status := .fatal .addressOutOfRange }) ∧
  (∀ (s : State) (a b : RegIdx) (offset : Int) (ea : Nat), (ea : Int) = s32 (s.readReg a) + offset →
    ea < s.params.memSize → ∃ t, exec (.lw a b offset) s = .next t ∧
      t.readReg b = s.memRead ea ∧ (∀ r, r ≠ b → t.readReg r = s.readReg r) ∧ t.pc = s.pc + 1 ∧
      (∀ x, t.memRead x = s.memRead x) ∧ t.mem = s.mem ∧ t.loadedSize = s.loadedSize ∧
      t.instructionsExecuted = s.instructionsExecuted + 1 ∧ t.status = s.status ∧ t.params = s.params)

/-- R102: sw over the whole range of its exact effective address: the two Fatals, and the store with its frame. The
address stored to is `ea`, the exact sum; every other word is unchanged. Decisions D4, D5 and D7 as for lw (logs 11,
12 and 10). The memory premise is the invariant's `memCanonical` (StepKeepsTheInvariant). That a Fatal is a next state
is the model's choice (log 9). -/
def Obligations.StoreWritesTheAddressedWord : Prop :=
  (∀ w : Word, (∃ a b offset, decode w = .ok (.sw a b offset)) ↔ w &&& 0xFFC00000 = 0x00C00000) ∧
  (∀ (s : State) (a b : RegIdx) (offset : Int), s32 (s.readReg a) + offset < 0 →
    exec (.sw a b offset) s = .next { s with status := .fatal .negativeEffectiveAddress }) ∧
  (∀ (s : State) (a b : RegIdx) (offset : Int), 0 ≤ s32 (s.readReg a) + offset →
    (s.params.memSize : Int) ≤ s32 (s.readReg a) + offset →
    exec (.sw a b offset) s = .next { s with status := .fatal .addressOutOfRange }) ∧
  (∀ (s : State) (a b : RegIdx) (offset : Int) (ea : Nat), (ea : Int) = s32 (s.readReg a) + offset →
    ea < s.params.memSize → ∃ t, exec (.sw a b offset) s = .next t ∧
      (Memory.wf s.mem → t.memRead ea = s.readReg b ∧ ∀ x, x ≠ ea → t.memRead x = s.memRead x) ∧
      t.loadedSize = max s.loadedSize (ea + 1) ∧ (∀ r, t.readReg r = s.readReg r) ∧ t.pc = s.pc + 1 ∧
      t.instructionsExecuted = s.instructionsExecuted + 1 ∧ t.status = s.status ∧ t.params = s.params)

/-- R110: beq taken with a target of 0 or more, taken with a negative target, and not taken; an offset that would give
a negative target does not matter when it is not taken. That the count and pc stay on the Fatal is the spec's decision
D7 (R158, log 10); the exact, unwrapped target: log 12. That a Fatal is a next state is the model's choice (log 9). -/
def Obligations.BranchGoesToTheTargetWhenEqual : Prop :=
  (∀ w : Word, (∃ a b offset, decode w = .ok (.beq a b offset)) ↔ w &&& 0xFFC00000 = 0x01000000) ∧
  (∀ (s : State) (a b : RegIdx) (offset : Int), s.readReg a = s.readReg b → (s.pc : Int) + 1 + offset < 0 →
    exec (.beq a b offset) s = .next { s with status := .fatal .negativeTarget }) ∧
  (∀ (s : State) (a b : RegIdx) (offset : Int),
    ¬ (s.readReg a = s.readReg b ∧ (s.pc : Int) + 1 + offset < 0) → ∃ t, exec (.beq a b offset) s = .next t ∧
      (s.readReg a = s.readReg b → (t.pc : Int) = (s.pc : Int) + 1 + offset) ∧
      (s.readReg a ≠ s.readReg b → t.pc = s.pc + 1) ∧
      (∀ r, t.readReg r = s.readReg r) ∧ (∀ x, t.memRead x = s.memRead x) ∧ t.mem = s.mem ∧
      t.loadedSize = s.loadedSize ∧ t.instructionsExecuted = s.instructionsExecuted + 1 ∧
      t.status = s.status ∧ t.params = s.params)

/-- R111: jalr, its Fatals and its effect. With equal registers the link is written first and the jump goes to `pc +
1`: the spec's decision D8 (log 13); the negative test before any write: C2 (log 13). That the count and pc stay on a
Fatal is decision D7 (R158, log 10). That a Fatal is a next state is the model's choice (log 9). -/
def Obligations.JumpLinksAndGoesToTheRegister : Prop :=
  (∀ w : Word, (∃ a b, decode w = .ok (.jalr a b)) ↔ w &&& 0xFFC0FFFF = 0x01400000) ∧
  (∀ s : State, s.StepEnabled → slice (s.memRead s.pc) 31 25 = 0 → slice (s.memRead s.pc) 24 22 = 5 →
    slice (s.memRead s.pc) 15 0 ≠ 0 → step s = .next { s with status := .fatal .unusedFieldViolation }) ∧
  (∀ (s : State) (a b : RegIdx), a ≠ b → s32 (s.readReg a) < 0 →
    exec (.jalr a b) s = .next { s with status := .fatal .negativeTarget }) ∧
  (∀ (s : State) (a b : RegIdx), a = b ∨ 0 ≤ s32 (s.readReg a) → ∃ t, exec (.jalr a b) s = .next t ∧
    t.readReg b = wrap32 ((s.pc : Int) + 1) ∧ (∀ r, r ≠ b → t.readReg r = s.readReg r) ∧
    (a ≠ b → (t.pc : Int) = s32 (s.readReg a)) ∧ (a = b → t.pc = s.pc + 1) ∧
    (∀ x, t.memRead x = s.memRead x) ∧ t.mem = s.mem ∧ t.loadedSize = s.loadedSize ∧
    t.instructionsExecuted = s.instructionsExecuted + 1 ∧ t.status = s.status ∧ t.params = s.params)

/-- R120: the one legal halt word, the Fatal of any other word of its opcode (which does not halt), and the effect.
That the count and pc stay on the Fatal is the spec's decision D7 (R158, log 10); that `step` answers runEnded after
the halt is the model's choice (log 8). That a Fatal is a next state is the model's choice (log 9). -/
def Obligations.HaltEndsTheRunNormally : Prop :=
  (∀ w : Word, decode w = .ok .halt ↔ w = 0x01800000) ∧
  (∀ s : State, s.StepEnabled → slice (s.memRead s.pc) 31 25 = 0 → slice (s.memRead s.pc) 24 22 = 6 →
    slice (s.memRead s.pc) 21 0 ≠ 0 → step s = .next { s with status := .fatal .unusedFieldViolation }) ∧
  (∀ s : State, ∃ t, exec .halt s = .next t ∧ t.status = .halted ∧ t.pc = s.pc + 1 ∧
    (∀ r, t.readReg r = s.readReg r) ∧ (∀ x, t.memRead x = s.memRead x) ∧ t.mem = s.mem ∧
    t.loadedSize = s.loadedSize ∧ t.instructionsExecuted = s.instructionsExecuted + 1 ∧ t.params = s.params ∧
    t.report.haltedNormally = true ∧ step t = .fault .runEnded)

/-- R121: the one legal noop word, the Fatal of any other word of its opcode, and the effect: nothing but pc and the
count changes. That the count and pc stay on the Fatal is the spec's decision D7 (R158, log 10). That a Fatal is a
next state is the model's choice (log 9). -/
def Obligations.NoopOnlyAdvances : Prop :=
  (∀ w : Word, decode w = .ok .noop ↔ w = 0x01C00000) ∧
  (∀ s : State, s.StepEnabled → slice (s.memRead s.pc) 31 25 = 0 → slice (s.memRead s.pc) 24 22 = 7 →
    slice (s.memRead s.pc) 21 0 ≠ 0 → step s = .next { s with status := .fatal .unusedFieldViolation }) ∧
  (∀ s : State, ∃ t, exec .noop s = .next t ∧ t.pc = s.pc + 1 ∧
    (∀ r, t.readReg r = s.readReg r) ∧ (∀ x, t.memRead x = s.memRead x) ∧ t.mem = s.mem ∧
    t.loadedSize = s.loadedSize ∧ t.instructionsExecuted = s.instructionsExecuted + 1 ∧
    t.status = s.status ∧ t.params = s.params)

/-! ## Whole-machine rules -/

/-- R103 (its upper bound on `e` is the spec's derivation): what a sw puts at `e` a later lw from `e` loads, into any
register, from any state in which the word at `e` has not been stored to since. -/
def Obligations.LoadAfterStoreReturnsTheValue : Prop :=
  ∀ (s : State) (a b : RegIdx) (offset : Int) (e : Nat), Memory.wf s.mem →
    (e : Int) = s32 (s.readReg a) + offset → e < s.params.memSize →
    ∃ t, exec (.sw a b offset) s = .next t ∧ t.loadedSize = max s.loadedSize (e + 1) ∧
      ∀ (u : State) (a' b' : RegIdx) (offset' : Int), u.memRead e = t.memRead e → u.params = t.params →
        (e : Int) = s32 (u.readReg a') + offset' →
        ∃ v, exec (.lw a' b' offset') u = .next v ∧ v.readReg b' = s.readReg b

/-- R44, sharpened to the word: a step that changes a word of memory, or `loadedSize`, ran a sw; the changed word is
the one the sw addresses. -/
def Obligations.OnlyStoresChangeMemory : Prop :=
  ∀ s t : State, Memory.wf s.mem → step s = .next t →
    ((t.mem ≠ s.mem ∨ t.loadedSize ≠ s.loadedSize) →
      ∃ a b offset, decode (s.memRead s.pc) = .ok (.sw a b offset)) ∧
    ∀ x, t.memRead x ≠ s.memRead x →
      ∃ a b offset, decode (s.memRead s.pc) = .ok (.sw a b offset) ∧ (x : Int) = s32 (s.readReg a) + offset

/-- R13, the writes: a step that changes register `r` ran an add or nand with rd = r, or a lw or jalr with regB = r. -/
def Obligations.OnlyTheDestinationRegisterChanges : Prop :=
  ∀ (s t : State) (r : RegIdx), step s = .next t → t.readReg r ≠ s.readReg r →
    (∃ a b, decode (s.memRead s.pc) = .ok (.add a b r)) ∨ (∃ a b, decode (s.memRead s.pc) = .ok (.nand a b r)) ∨
    (∃ a offset, decode (s.memRead s.pc) = .ok (.lw a r offset)) ∨
    (∃ a, decode (s.memRead s.pc) = .ok (.jalr a r))

/-- R13, the reads: another value in a register the instruction does not read changes nothing it does; that register
itself keeps the other value unless the instruction, completing, writes it. -/
def Obligations.UnreadRegistersDoNotMatter : Prop :=
  ∀ (i : Instr) (s : State) (q : RegIdx) (v : Word), q ∉ i.readsRegs → s.status = .run →
    ∃ t t', exec i s = .next t ∧ exec i (s.writeReg q v) = .next t' ∧
      t'.pc = t.pc ∧ t'.mem = t.mem ∧ t'.loadedSize = t.loadedSize ∧
      t'.instructionsExecuted = t.instructionsExecuted ∧ t'.status = t.status ∧ t'.params = t.params ∧
      (∀ r, r ≠ q → t'.readReg r = t.readReg r) ∧
      (i.writesReg = some q ∧ t.NotFatal → t'.readReg q = t.readReg q) ∧
      (¬ (i.writesReg = some q ∧ t.NotFatal) → t'.readReg q = v)

/-- R11, R12: no register is special. Renaming the registers of the instruction and of the state by any permutation
renames the registers of the result, and changes nothing else. -/
def Obligations.NoRegisterIsSpecial : Prop :=
  ∀ (σ : Equiv.Perm RegIdx) (i : Instr) (s : State),
    ∃ t, exec i s = .next t ∧ exec (i.renameRegs σ) (s.renameRegs σ) = .next (t.renameRegs σ)

/-- R42: the word a sw stores is what the next fetch from that address sees, pc + 1 and its own address included,
though the sw itself is the instruction fetched before the store. -/
def Obligations.StoredWordIsFetchedNext : Prop :=
  ∀ (s t : State) (a b : RegIdx) (offset : Int) (ea : Nat), Memory.wf s.mem → s.StepEnabled →
    decode (s.memRead s.pc) = .ok (.sw a b offset) → (ea : Int) = s32 (s.readReg a) + offset →
    ea < s.params.memSize → step s = .next t →
    t.pc = s.pc + 1 ∧
    ∀ u : State, u.mem = t.mem → u.pc = ea → u.StepEnabled → step u = execWord (s.readReg b) u

/-- R15, R112: a step that completes goes to pc + 1, unless it ran a beq on equal registers or a jalr of
different ones. That a jalr with equal registers goes to pc + 1 is the spec's decision D8 (log 13). -/
def Obligations.OnlyTransfersLeaveTheSequence : Prop :=
  ∀ s t : State, step s = .next t → t.NotFatal → t.pc ≠ s.pc + 1 →
    (∃ a b offset, decode (s.memRead s.pc) = .ok (.beq a b offset) ∧ s.readReg a = s.readReg b ∧
      (t.pc : Int) = (s.pc : Int) + 1 + offset) ∨
    (∃ a b, decode (s.memRead s.pc) = .ok (.jalr a b) ∧ a ≠ b ∧ (t.pc : Int) = s32 (s.readReg a))

/-- R113: a transfer to an address at or above `loadedSize` is no Fatal; it completes, and the run has ended. That such
a target is no error is the spec's derivation and decision D19 (log 19), the target of a jalr with equal registers its
decision D8 (log 13), the answer runEnded the model's choice (log 8). -/
def Obligations.TransfersPastTheImageEndTheRun : Prop :=
  (∀ (s : State) (a b : RegIdx) (offset : Int), s.readReg a = s.readReg b →
    (s.loadedSize : Int) ≤ (s.pc : Int) + 1 + offset →
    ∃ t, exec (.beq a b offset) s = .next t ∧ t.status = s.status ∧
      (t.pc : Int) = (s.pc : Int) + 1 + offset ∧ step t = .fault .runEnded) ∧
  (∀ (s : State) (a b : RegIdx), a ≠ b → (s.loadedSize : Int) ≤ s32 (s.readReg a) →
    ∃ t, exec (.jalr a b) s = .next t ∧ t.status = s.status ∧
      (t.pc : Int) = s32 (s.readReg a) ∧ step t = .fault .runEnded) ∧
  (∀ (s : State) (a : RegIdx), s.loadedSize ≤ s.pc + 1 →
    ∃ t, exec (.jalr a a) s = .next t ∧ t.status = s.status ∧ t.pc = s.pc + 1 ∧ step t = .fault .runEnded)

/-- R100, the spec's derivation behind decision D5 (log 12): with the parameters in range and an encodable offset, the
exact and the wrapped sum pass the address check alike, with the same address. -/
def Obligations.WrappedAddressFaultsAlike : Prop :=
  ∀ (p : Params) (base : Word) (offset : Int) (ea : Nat), p.Valid → offsetInRange offset = true →
    (checkAddress p.memSize (s32 base + offset) = .ok ea ↔
      checkAddress p.memSize (s32 (wrap32 (s32 base + offset))) = .ok ea)

/-- The model's memory form (log 1): two canonical memories that read alike at every address are the same data. -/
def Obligations.CanonicalMemoryIsDeterminedByItsReads : Prop :=
  ∀ m m' : Memory, Memory.wf m → Memory.wf m' → (∀ a, Memory.read m a = Memory.read m' a) → m = m'

/-- R4: the parameters of a run are fixed (`params` is the model's own field, log 5). -/
def Obligations.StepKeepsTheRunParameters : Prop :=
  ∀ s t : State, step s = .next t → t.params = s.params

/-! ## Invariant, reset and runs -/

/-- R24: every step keeps the invariant, never lowers `loadedSize` or `instructionsExecuted`, and leaves pc at the
faulting instruction if it ends Fatal. The bound `instructionsExecuted <= CEILING` is the spec's decision D6 (log 7),
that the count and pc stay on a Fatal its decision D7 (log 10), the range of pc its decision D19 (log 19), that of
`MEM_SIZE` its decision D18 (log 5). That a Fatal is a next state is the model's choice (log 9). -/
def Obligations.StepKeepsTheInvariant : Prop :=
  ∀ s t : State, s.Inv → step s = .next t →
    t.Inv ∧ s.loadedSize ≤ t.loadedSize ∧ s.instructionsExecuted ≤ t.instructionsExecuted ∧
      (¬ t.NotFatal → t.pc = s.pc)

/-- R26: the state after reset, here of the empty image and the default parameters (log 6). The register and memory
values are the spec's decisions D1 and D2 (log 2, log 3), pc, count and status its derivation and D3 (log 4). -/
def Obligations.ResetStateIsAsListed : Prop :=
  (∀ r, State.reset.readReg r = 0) ∧ (∀ a, State.reset.memRead a = 0) ∧ State.reset.pc = 0 ∧
  State.reset.loadedSize = 0 ∧ State.reset.instructionsExecuted = 0 ∧ State.reset.status = .run ∧
  State.reset.params.memSize = 65536 ∧ State.reset.params.ceiling = 1000 ∧
  State.reset = State.boot Params.default []

/-- R24 at reset: `State.reset` meets the invariant (its pc, count and status: log 4; its parameters: log 5). -/
def Obligations.ResetMeetsTheInvariant : Prop := State.reset.Inv

/-- R26, R181: reset with an image that fits: the image stands at addresses 0 to n - 1 and every other word and every
register has its reset value (decisions D1, D2; log 2, log 3); pc 0 is the spec's derivation R27, count 0 and status RUN
its decision D3 (log 4); the invariant holds. -/
def Obligations.BootHoldsTheImage : Prop :=
  ∀ (p : Params) (image : List Word), ImageFits p image →
    (∀ a, (State.boot p image).memRead a = image.getD a 0) ∧
    (∀ r, (State.boot p image).readReg r = 0) ∧ (State.boot p image).pc = 0 ∧
    (State.boot p image).loadedSize = image.length ∧ (State.boot p image).instructionsExecuted = 0 ∧
    (State.boot p image).status = .run ∧ (State.boot p image).params = p ∧ (State.boot p image).Inv

/-- R182: the first instruction is the word at address 0 of the image (pc 0 and status RUN at reset: R27, D3, log 4). -/
def Obligations.FirstStepRunsWordZero : Prop :=
  ∀ (p : Params) (w : Word) (image : List Word), ImageFits p (w :: image) → 0 < p.ceiling →
    step (State.boot p (w :: image)) = execWord w (State.boot p (w :: image))

/-- R24: the invariant holds in every state a run reaches, from every image that fits and for all parameters in
range. It rests on the spec's decisions D6 (log 7), D7 (log 10) and D19 (log 19), as StepKeepsTheInvariant does, and on
the reset values of log 4. -/
def Obligations.ReachableStatesMeetTheInvariant : Prop :=
  ∀ (p : Params) (image : List Word) (n : Nat), ImageFits p image → (runFor n (State.boot p image)).Inv

/-- R135: after `k` steps either the run has ended or `instructionsExecuted = k`, and after `CEILING` steps it has
ended, for every image, halting or not. That `CEILING` steps suffice, and not one more, is the spec's decision D6 on its
conflict C1 (log 7). -/
def Obligations.EveryRunEndsWithinTheCeiling : Prop :=
  ∀ (p : Params) (image : List Word),
    (∀ k, ¬ (runFor k (State.boot p image)).StepEnabled ∨ (runFor k (State.boot p image)).instructionsExecuted = k) ∧
    ∀ k, p.ceiling ≤ k → ¬ (runFor k (State.boot p image)).StepEnabled ∧
      runFor k (State.boot p image) = runToEnd (State.boot p image)

/-- R134, R136: the final state of a run has one of the four causes, the ceiling exactly reached in its case (the spec's
decision D6, log 7); the report is true of halting. -/
def Obligations.RunEndsForOneOfTheFourCauses : Prop :=
  ∀ (p : Params) (image : List Word) (f : State), ImageFits p image → f = runToEnd (State.boot p image) →
    (f.status = .halted ∨ (∃ r, f.status = .fatal r) ∨ f.PcExhausted ∨
      (f.CeilingReached ∧ f.instructionsExecuted = p.ceiling)) ∧
    (f.report.haltedNormally = true ↔ f.status = .halted) ∧
    f.report.instructionsExecuted = f.instructionsExecuted ∧
    (∀ r, f.fatalReason = some r ↔ f.status = .fatal r)
end

