-- ==== Sys2Proof/Laws/Decode.lean ====
section
/-! SUPPORT. The decoder's small laws: a mask test is a slice test, the opcode map is a bijection, and the answers of
`decode`. -/

namespace Sys2Proof

/-! ## Slices and masks -/

/-- A slice has as many bits as it spans. -/
theorem slice_lt (w : Word) (hi lo : Nat) : slice w hi lo < 2 ^ (hi - lo + 1) :=
  Nat.mod_lt _ (Nat.two_pow_pos _)

/-- ANDing with a run of ones keeps just that run of bits. -/
theorem land_run (n lo len : Nat) : n &&& ((2 ^ len - 1) * 2 ^ lo) = n / 2 ^ lo % 2 ^ len * 2 ^ lo := by
  apply Nat.eq_of_testBit_eq
  intro i
  rw [Nat.testBit_and, Nat.testBit_mul_two_pow, Nat.testBit_mul_two_pow, Nat.testBit_two_pow_sub_one,
    Nat.testBit_mod_two_pow, Nat.testBit_div_two_pow]
  by_cases h : lo ≤ i
  · simp [h, Bool.and_comm]
  · simp [h]

/-- The number behind a word ANDed with a run of ones. -/
theorem toNat_and_run (w m : Word) (hi lo : Nat) (hm : m.toNat = (2 ^ (hi - lo + 1) - 1) * 2 ^ lo) :
    (w &&& m).toNat = slice w hi lo * 2 ^ lo := by
  rw [BitVec.toNat_and, hm, land_run, slice]

/-- A mask test with a run of ones is a test of that slice (R59). -/
theorem and_run_eq_zero (w m : Word) (hi lo : Nat) (hm : m.toNat = (2 ^ (hi - lo + 1) - 1) * 2 ^ lo) :
    w &&& m = 0 ↔ slice w hi lo = 0 := by
  rw [← BitVec.toNat_inj, toNat_and_run w m hi lo hm]
  simp

/-- The unused-bit test of R59, opcode by opcode, as a test of bit ranges. -/
theorem unusedMask_test (w : Word) (op : Opcode) : w &&& unusedMask op = 0 ↔
    match op with
    | .add | .nand => slice w 15 5 = 0
    | .lw | .sw | .beq => True
    | .jalr => slice w 15 0 = 0
    | .halt | .noop => slice w 21 0 = 0 := by
  cases op
  case add | nand => exact and_run_eq_zero w _ 15 5 (by decide)
  case jalr => exact and_run_eq_zero w _ 15 0 (by decide)
  case halt | noop => exact and_run_eq_zero w _ 21 0 (by decide)
  all_goals simp [unusedMask]

/-! ## The opcode map -/

@[simp] theorem Opcode.ofCode_code (op : Opcode) : Opcode.ofCode (Fin.ofNat 8 op.code) = op := by
  cases op <;> rfl

theorem Opcode.code_ofCode (c : Fin 8) : (Opcode.ofCode c).code = c.val := by
  revert c; decide

theorem Opcode.code_lt (op : Opcode) : op.code < 8 := by cases op <;> decide

/-- The opcode of the fields has the code in bits 24 to 22 (R51, R57). -/
theorem decodeFields_opcode_code (w : Word) : (decodeFields w).opcode.code = slice w 24 22 := by
  have := slice_lt w 24 22
  simp only [decodeFields, Opcode.code_ofCode, Fin.ofNat]
  exact Nat.mod_eq_of_lt this

/-- The opcode of the fields is `op` exactly when bits 24 to 22 hold its code. -/
theorem decodeFields_opcode_eq (w : Word) (op : Opcode) : (decodeFields w).opcode = op ↔ slice w 24 22 = op.code := by
  rw [← decodeFields_opcode_code]
  constructor
  · rintro rfl; rfl
  · intro h
    generalize (decodeFields w).opcode = op' at h
    cases op <;> cases op' <;> first | rfl | cases h

/-! ## What decode answers -/

@[simp] theorem Instr.ofFields_opcode (f : DecodedFields) : (Instr.ofFields f).opcode = f.opcode := by
  cases f with
  | mk op a b d off => cases op <;> rfl

theorem decode_eq_malformed {w : Word} : decode w = .error .malformedEncoding ↔ slice w 31 25 ≠ 0 := by
  unfold decode
  split
  · simp_all
  · split <;> simp_all

theorem decode_eq_unused {w : Word} : decode w = .error .unusedFieldViolation ↔
    slice w 31 25 = 0 ∧ w &&& unusedMask (decodeFields w).opcode ≠ 0 := by
  unfold decode
  split
  · simp_all
  · split <;> simp_all

theorem decode_eq_ok {w : Word} {i : Instr} : decode w = .ok i ↔
    slice w 31 25 = 0 ∧ w &&& unusedMask (decodeFields w).opcode = 0 ∧ Instr.ofFields (decodeFields w) = i := by
  unfold decode
  split
  · simp_all
  · split <;> simp_all

/-- An instruction that decodes has the opcode in the word's field. -/
theorem opcode_of_decode {w : Word} {i : Instr} (h : decode w = .ok i) : (decodeFields w).opcode = i.opcode := by
  rw [← (decode_eq_ok.mp h).2.2, Instr.ofFields_opcode]

/-! ## Sign extension and the encoder -/

/-- A sign-extended 16-bit number is in the offset range (R56). -/
theorem sext16_range {v : Nat} (h : v < 2 ^ 16) : -32768 ≤ sext16 v ∧ sext16 v ≤ 32767 := by
  unfold sext16
  split <;> omega

/-- Sign extension undoes the reduction modulo 2^16 of an offset in range (R65). -/
theorem sext16_emod {offset : Int} (h : offsetInRange offset = true) : sext16 (offset % 0x10000).toNat = offset := by
  simp only [offsetInRange, Bool.and_eq_true, decide_eq_true_eq] at h
  unfold sext16
  split <;> omega

/-- The reduction modulo 2^16 undoes sign extension (R56, R65). -/
theorem emod_sext16 {v : Nat} (h : v < 2 ^ 16) : (sext16 v % 0x10000).toNat = v := by
  unfold sext16
  split <;> omega

theorem Instr.fieldA_lt (i : Instr) : i.fieldA < 8 := by
  cases i <;> simp only [Instr.fieldA] <;> omega

theorem Instr.fieldB_lt (i : Instr) : i.fieldB < 8 := by
  cases i <;> simp only [Instr.fieldB] <;> omega

theorem Instr.low16_lt (i : Instr) : i.low16 < 65536 := by
  cases i <;> simp only [Instr.low16] <;> omega

/-- The encoding is a 25-bit number (R65). -/
theorem Instr.encodeNat_lt (i : Instr) : i.encodeNat < 2 ^ 25 := by
  have h1 := i.opcode.code_lt
  have h2 := i.fieldA_lt
  have h3 := i.fieldB_lt
  have h4 := i.low16_lt
  unfold Instr.encodeNat
  omega

theorem encode_toNat (i : Instr) : (encode i).toNat = i.encodeNat := by
  have := i.encodeNat_lt
  rw [encode, BitVec.toNat_ofNat, Nat.mod_eq_of_lt (by omega)]

/-! ## Parts of a mask, and the legality table -/

/-- What a word shows under a mask it shows under every part of the mask. -/
theorem and_part {w k c : Word} (h : w &&& k = c) (m : Word) : w &&& (k &&& m) = c &&& m := by
  rw [← BitVec.and_assoc, h]

/-- R61: `MASK = 0xFE000000 | 0x01C00000 | UNUSED_MASK`. -/
theorem legalMask_eq (op : Opcode) : op.legalMask = 0xFE000000 ||| 0x01C00000 ||| unusedMask op := by
  cases op <;> decide

/-- The match-and-mask test of R61 is the reserved-bit test, the opcode and the unused-bit test. -/
theorem legalMask_test (w : Word) (op : Opcode) : w &&& op.legalMask = op.legalMatch ↔
    slice w 31 25 = 0 ∧ slice w 24 22 = op.code ∧ w &&& unusedMask op = 0 := by
  have hres : w &&& 0xFE000000 = 0 ↔ slice w 31 25 = 0 := and_run_eq_zero w _ 31 25 (by decide)
  have hop : w &&& 0x01C00000 = op.legalMatch ↔ slice w 24 22 = op.code := by
    have hm : op.legalMatch.toNat = op.code * 2 ^ 22 := by cases op <;> decide
    rw [← BitVec.toNat_inj, toNat_and_run w _ 24 22 (by decide), hm]
    exact Nat.mul_left_inj (by decide)
  rw [← hres, ← hop]
  constructor
  · intro h
    have h1 := and_part h 0xFE000000
    have h2 := and_part h 0x01C00000
    have h3 := and_part h (unusedMask op)
    cases op <;> exact ⟨h1, h2, h3⟩
  · rintro ⟨h1, h2, h3⟩
    rw [legalMask_eq, BitVec.and_or_distrib_left, BitVec.and_or_distrib_left, h1, h2, h3]
    cases op <;> decide

/-- A slice that does not meet the unchecked bits 4 and 3 is the same with them cleared (R60). -/
theorem slice_clear_unchecked (w m : Word) (hi lo : Nat) (hm : m.toNat = (2 ^ (hi - lo + 1) - 1) * 2 ^ lo)
    (hsub : 0xFFFFFFE7 &&& m = m) : slice (w &&& 0xFFFFFFE7) hi lo = slice w hi lo := by
  have h : w &&& 0xFFFFFFE7 &&& m = w &&& m := by rw [BitVec.and_assoc, hsub]
  have h' := congrArg BitVec.toNat h
  rw [toNat_and_run _ m hi lo hm, toNat_and_run _ m hi lo hm] at h'
  exact Nat.eq_of_mul_eq_mul_right (Nat.two_pow_pos lo) h'

/-- Clearing the unchecked bits 4 and 3 takes their value away (R60). -/
theorem toNat_clear_unchecked (w : Word) : (w &&& 0xFFFFFFE7).toNat + slice w 4 3 * 8 = w.toNat := by
  have hs : (w &&& 0x18).toNat = slice w 4 3 * 8 := toNat_and_run w 0x18 4 3 (by decide)
  have hd : (w &&& 0xFFFFFFE7) &&& (w &&& 0x18) = 0 := by
    rw [BitVec.and_assoc, ← BitVec.and_assoc 0xFFFFFFE7, BitVec.and_comm 0xFFFFFFE7 w, BitVec.and_assoc w,
      show (0xFFFFFFE7 &&& 0x18 : Word) = 0 by decide]
    simp
  have hsum : (w &&& 0xFFFFFFE7) + (w &&& 0x18) = w := by
    rw [BitVec.add_eq_or_of_and_eq_zero _ _ hd, ← BitVec.and_or_distrib_left,
      show (0xFFFFFFE7 ||| 0x18 : Word) = BitVec.allOnes 32 by decide, BitVec.and_allOnes]
  have hlt : (w &&& 0xFFFFFFE7).toNat + slice w 4 3 * 8 < 2 ^ 32 := by
    have h1 : (w &&& 0xFFFFFFE7).toNat ≤ 0xFFFFFFE7 := by
      rw [BitVec.toNat_and]; exact Nat.and_le_right
    have h2 := slice_lt w 4 3
    omega
  have h := congrArg BitVec.toNat hsum
  rw [BitVec.toNat_add, hs, Nat.mod_eq_of_lt hlt] at h
  exact h

/-- The fields of an instruction's encoding make the instruction again, if it is well formed (R65). -/
theorem Instr.ofFields_own (i : Instr) (hi : i.wellFormed = true) :
    Instr.ofFields ⟨i.opcode, Fin.ofNat 8 i.fieldA, Fin.ofNat 8 i.fieldB, Fin.ofNat 8 (i.low16 % 8), sext16 i.low16⟩ =
      i := by
  have hv : ∀ a : RegIdx, Fin.ofNat 8 a.val = a := fun a => Fin.ext (Nat.mod_eq_of_lt a.isLt)
  have hv8 : ∀ a : RegIdx, Fin.ofNat 8 (a.val % 8) = a := fun a => by rw [Nat.mod_eq_of_lt a.isLt, hv]
  cases i with
  | add a b d => simp only [Instr.ofFields, Instr.opcode, Instr.fieldA, Instr.fieldB, Instr.low16, hv, hv8]
  | nand a b d => simp only [Instr.ofFields, Instr.opcode, Instr.fieldA, Instr.fieldB, Instr.low16, hv, hv8]
  | lw a b offset =>
    simp only [Instr.ofFields, Instr.opcode, Instr.fieldA, Instr.fieldB, Instr.low16, hv, sext16_emod hi]
  | sw a b offset =>
    simp only [Instr.ofFields, Instr.opcode, Instr.fieldA, Instr.fieldB, Instr.low16, hv, sext16_emod hi]
  | beq a b offset =>
    simp only [Instr.ofFields, Instr.opcode, Instr.fieldA, Instr.fieldB, Instr.low16, hv, sext16_emod hi]
  | jalr a b => simp only [Instr.ofFields, Instr.opcode, Instr.fieldA, Instr.fieldB, hv]
  | halt => rfl
  | noop => rfl

end Sys2Proof
end

