-- ==== Sys2Proof/Laws/Memory.lean ====
section
/-! SUPPORT. The laws of the memory list: read after write, and that every operation keeps the canonical form. -/

namespace Sys2Proof.Machine

/-- The canonical form of a list with a first entry. -/
theorem Memory.wf_cons {b : Nat} {u : Word} {m : Memory} :
    Memory.wf ((b, u) :: m) ↔ (∀ p ∈ m, b < p.1) ∧ u ≠ Config.resetMem ∧ Memory.wf m := by
  simp only [Memory.wf, List.pairwise_cons, List.forall_mem_cons]
  tauto

/-- An address below every entry is not listed, so it reads as the reset value. -/
theorem Memory.read_of_lt_all {m : Memory} {a : Nat} (h : ∀ p ∈ m, a < p.1) : Memory.read m a = Config.resetMem := by
  induction m with
  | nil => rfl
  | cons e m ih =>
    obtain ⟨b, u⟩ := e
    simp only [List.forall_mem_cons] at h
    rw [Memory.read, if_neg (by omega), ih h.2]

/-- Every entry after a write is the one written or was there before. -/
theorem Memory.mem_write {m : Memory} {a : Nat} {v : Word} {e : Nat × Word} (h : e ∈ Memory.write m a v) :
    e = (a, v) ∨ e ∈ m := by
  induction m with
  | nil =>
    simp only [Memory.write] at h
    split at h <;> simp_all
  | cons d m ih =>
    obtain ⟨b, u⟩ := d
    simp only [Memory.write] at h
    split at h
    · split at h <;> simp_all
    · split at h
      · split at h <;> (simp_all; try tauto)
      · simp only [List.mem_cons] at h ⊢
        rcases h with h | h
        · exact Or.inr (Or.inl h)
        · exact (ih h).imp id Or.inr

/-- A write keeps the canonical form. -/
theorem Memory.write_wf {m : Memory} (a : Nat) (v : Word) (h : Memory.wf m) : Memory.wf (Memory.write m a v) := by
  induction m with
  | nil =>
    simp only [Memory.write]
    split
    · exact h
    · next hv => simp [Memory.wf, hv]
  | cons e m ih =>
    obtain ⟨b, u⟩ := e
    have hc := Memory.wf_cons.mp h
    simp only [Memory.write]
    split
    · next hab =>
      split
      · exact h
      · next hv =>
        refine Memory.wf_cons.mpr ⟨?_, hv, h⟩
        intro p hp
        rcases List.mem_cons.mp hp with rfl | hp
        · exact hab
        · exact lt_trans hab (hc.1 p hp)
    · split
      · next hab =>
        split
        · exact hc.2.2
        · next hv => exact Memory.wf_cons.mpr ⟨hab ▸ hc.1, hv, hc.2.2⟩
      · refine Memory.wf_cons.mpr ⟨?_, hc.2.1, ih hc.2.2⟩
        intro p hp
        rcases Memory.mem_write hp with rfl | hp
        · show b < a
          omega
        · exact hc.1 p hp

/-- A word reads as what was stored there last (R35). -/
theorem Memory.read_write_self {m : Memory} (a : Nat) (v : Word) (h : Memory.wf m) :
    Memory.read (Memory.write m a v) a = v := by
  induction m with
  | nil =>
    simp only [Memory.write]
    split
    · next hv => rw [hv]; rfl
    · simp [Memory.read]
  | cons e m ih =>
    obtain ⟨b, u⟩ := e
    have hc := Memory.wf_cons.mp h
    simp only [Memory.write]
    split
    · next hab =>
      split
      · next hv =>
        rw [hv]
        apply Memory.read_of_lt_all
        intro p hp
        rcases List.mem_cons.mp hp with rfl | hp
        · exact hab
        · exact lt_trans hab (hc.1 p hp)
      · simp [Memory.read]
    · split
      · next hab =>
        split
        · next hv =>
          rw [hv, hab]
          exact Memory.read_of_lt_all hc.1
        · simp [Memory.read]
      · next hab =>
        rw [Memory.read, if_neg hab, ih hc.2.2]

/-- A write leaves every other word alone (R35). -/
theorem Memory.read_write_of_ne {m : Memory} {a c : Nat} (v : Word) (hca : c ≠ a) :
    Memory.read (Memory.write m a v) c = Memory.read m c := by
  induction m with
  | nil =>
    simp only [Memory.write]
    split
    · rfl
    · simp [Memory.read, hca]
  | cons e m ih =>
    obtain ⟨b, u⟩ := e
    simp only [Memory.write]
    split
    · split
      · rfl
      · simp [Memory.read, hca]
    · split
      · next hab =>
        subst hab
        split <;> simp [Memory.read, hca]
      · simp [Memory.read, ih]

/-- Both cases of a read after a write. -/
theorem Memory.read_write {m : Memory} (a c : Nat) (v : Word) (h : Memory.wf m) :
    Memory.read (Memory.write m a v) c = if c = a then v else Memory.read m c := by
  split
  · next hca => subst hca; exact Memory.read_write_self c v h
  · next hca => exact Memory.read_write_of_ne v hca

/-- A listed address reads as its entry. -/
theorem Memory.read_of_mem {m : Memory} {e : Nat × Word} (h : Memory.wf m) (he : e ∈ m) :
    Memory.read m e.1 = e.2 := by
  induction m with
  | nil => cases he
  | cons d m ih =>
    obtain ⟨b, u⟩ := d
    have hc := Memory.wf_cons.mp h
    rcases List.mem_cons.mp he with rfl | he
    · simp [Memory.read]
    · have := hc.1 e he
      rw [Memory.read, if_neg (by omega), ih hc.2.2 he]

/-- The memory of a state after reset is canonical. -/
theorem Memory.reset_wf : Memory.wf State.reset.mem := by
  simp [State.reset, Memory.wf]

/-- Loading an image keeps the canonical form. -/
theorem Memory.loadFrom_wf {m : Memory} (a : Nat) (ws : List Word) (h : Memory.wf m) :
    Memory.wf (Memory.loadFrom m a ws) := by
  induction ws generalizing m a with
  | nil => exact h
  | cons w ws ih => exact ih (a + 1) (Memory.write_wf a w h)

/-- What a read sees after the image load (R181). -/
theorem Memory.read_loadFrom {m : Memory} (a c : Nat) (ws : List Word) (h : Memory.wf m) :
    Memory.read (Memory.loadFrom m a ws) c =
      if c < a then Memory.read m c else (ws[c - a]?).getD (Memory.read m c) := by
  induction ws generalizing m a with
  | nil => simp [Memory.loadFrom]
  | cons w ws ih =>
    rw [Memory.loadFrom, ih (a + 1) (Memory.write_wf a w h)]
    rcases lt_trichotomy c a with hlt | rfl | hgt
    · rw [if_pos (by omega), if_pos hlt, Memory.read_write_of_ne w (by omega)]
    · rw [if_pos (by omega), if_neg (by omega), Memory.read_write_self c w h]
      simp
    · rw [if_neg (by omega), if_neg (by omega), Memory.read_write_of_ne w (by omega)]
      obtain ⟨k, rfl⟩ : ∃ k, c = a + 1 + k := ⟨c - (a + 1), by omega⟩
      have h1 : a + 1 + k - (a + 1) = k := by omega
      have h2 : a + 1 + k - a = k + 1 := by omega
      simp [h1, h2]

/-- An image load lists only addresses it covers, beside what was listed. -/
theorem Memory.mem_loadFrom {m : Memory} {a : Nat} {ws : List Word} {e : Nat × Word}
    (h : e ∈ Memory.loadFrom m a ws) : e ∈ m ∨ e.1 < a + ws.length := by
  induction ws generalizing m a with
  | nil => exact Or.inl h
  | cons w ws ih =>
    rcases ih h with h | h
    · rcases Memory.mem_write h with rfl | h
      · right; simp only [List.length_cons]; omega
      · exact Or.inl h
    · right; simp only [List.length_cons]; omega

/-- `MemWrite` then `MemRead` (R35). -/
theorem State.memRead_memWrite (s : State) (a c : Nat) (v : Word) (h : Memory.wf s.mem) :
    (s.memWrite a v).memRead c = if c = a then v else s.memRead c :=
  Memory.read_write a c v h

/-- `MemWrite` keeps the canonical form. -/
theorem State.memWrite_wf (s : State) (a : Nat) (v : Word) (h : Memory.wf s.mem) :
    Memory.wf (s.memWrite a v).mem :=
  Memory.write_wf a v h

end Sys2Proof.Machine
end

