-- ==== Sys2Proof/Laws/State.lean ====
section
/-! SUPPORT. One lemma per field per update of State, and what a register or memory read sees after each update. -/

namespace Sys2Proof.Machine

variable (s : State) (i : RegIdx) (v : Word) (a : Nat) (r : FatalReason)

/-! ## writeReg -/

@[simp] theorem State.writeReg_mem : (s.writeReg i v).mem = s.mem := rfl
@[simp] theorem State.writeReg_pc : (s.writeReg i v).pc = s.pc := rfl
@[simp] theorem State.writeReg_loadedSize : (s.writeReg i v).loadedSize = s.loadedSize := rfl
@[simp] theorem State.writeReg_instructionsExecuted :
    (s.writeReg i v).instructionsExecuted = s.instructionsExecuted := rfl
@[simp] theorem State.writeReg_status : (s.writeReg i v).status = s.status := rfl
@[simp] theorem State.writeReg_params : (s.writeReg i v).params = s.params := rfl
@[simp] theorem State.writeReg_memRead : (s.writeReg i v).memRead a = s.memRead a := rfl

/-- A register reads as what was written to it, register 0 among them (R12). -/
@[simp] theorem State.readReg_writeReg_self : (s.writeReg i v).readReg i = v := by
  simp [State.readReg, State.writeReg]

/-- A write leaves every other register alone. -/
theorem State.readReg_writeReg_of_ne {j : RegIdx} (h : j ≠ i) : (s.writeReg i v).readReg j = s.readReg j := by
  have : i.val ≠ j.val := fun e => h (Fin.ext e.symm)
  simp [State.readReg, State.writeReg, this]

/-- Both cases of a register read after a register write. -/
theorem State.readReg_writeReg (j : RegIdx) :
    (s.writeReg i v).readReg j = if j = i then v else s.readReg j := by
  split
  · next h => subst h; simp
  · next h => exact State.readReg_writeReg_of_ne s i v h

/-! ## memWrite -/

@[simp] theorem State.memWrite_regs : (s.memWrite a v).regs = s.regs := rfl
@[simp] theorem State.memWrite_mem : (s.memWrite a v).mem = Memory.write s.mem a v := rfl
@[simp] theorem State.memWrite_pc : (s.memWrite a v).pc = s.pc := rfl
@[simp] theorem State.memWrite_loadedSize : (s.memWrite a v).loadedSize = max s.loadedSize (a + 1) := rfl
@[simp] theorem State.memWrite_instructionsExecuted :
    (s.memWrite a v).instructionsExecuted = s.instructionsExecuted := rfl
@[simp] theorem State.memWrite_status : (s.memWrite a v).status = s.status := rfl
@[simp] theorem State.memWrite_params : (s.memWrite a v).params = s.params := rfl
@[simp] theorem State.memWrite_readReg : (s.memWrite a v).readReg i = s.readReg i := rfl

/-! ## commit -/

@[simp] theorem State.commit_regs : (s.commit a).regs = s.regs := rfl
@[simp] theorem State.commit_mem : (s.commit a).mem = s.mem := rfl
@[simp] theorem State.commit_pc : (s.commit a).pc = a := rfl
@[simp] theorem State.commit_loadedSize : (s.commit a).loadedSize = s.loadedSize := rfl
@[simp] theorem State.commit_instructionsExecuted :
    (s.commit a).instructionsExecuted = s.instructionsExecuted + 1 := rfl
@[simp] theorem State.commit_status : (s.commit a).status = s.status := rfl
@[simp] theorem State.commit_params : (s.commit a).params = s.params := rfl
@[simp] theorem State.commit_readReg : (s.commit a).readReg i = s.readReg i := rfl
@[simp] theorem State.commit_memRead (b : Nat) : (s.commit a).memRead b = s.memRead b := rfl

/-! ## fatalEntry -/

@[simp] theorem State.fatalEntry_regs : (s.fatalEntry r).regs = s.regs := rfl
@[simp] theorem State.fatalEntry_mem : (s.fatalEntry r).mem = s.mem := rfl
@[simp] theorem State.fatalEntry_pc : (s.fatalEntry r).pc = s.pc := rfl
@[simp] theorem State.fatalEntry_loadedSize : (s.fatalEntry r).loadedSize = s.loadedSize := rfl
@[simp] theorem State.fatalEntry_instructionsExecuted :
    (s.fatalEntry r).instructionsExecuted = s.instructionsExecuted := rfl
@[simp] theorem State.fatalEntry_status : (s.fatalEntry r).status = .fatal r := rfl
@[simp] theorem State.fatalEntry_params : (s.fatalEntry r).params = s.params := rfl
@[simp] theorem State.fatalEntry_readReg : (s.fatalEntry r).readReg i = s.readReg i := rfl
@[simp] theorem State.fatalEntry_memRead : (s.fatalEntry r).memRead a = s.memRead a := rfl

/-- Two states that agree on every register by index and on the other fields are equal. -/
theorem State.eq_of_fields {s t : State} (hr : ∀ i, t.readReg i = s.readReg i) (hm : t.mem = s.mem)
    (hp : t.pc = s.pc) (hl : t.loadedSize = s.loadedSize)
    (hc : t.instructionsExecuted = s.instructionsExecuted) (hs : t.status = s.status)
    (hq : t.params = s.params) : t = s := by
  have : t.regs = s.regs := by
    apply Vector.ext
    intro k hk
    exact hr ⟨k, hk⟩
  cases s; cases t; simp_all

end Sys2Proof.Machine
end

