-- ==== Sys2Proof/Laws/Ops.lean ====
section
/-! SUPPORT. What each shared operation can answer, said once: the operand checks, the Fatal entry, each meaning, and
the step. -/

namespace Sys2Proof.Machine

/-! ## Operand checks -/

/-- The two ways an address check fails, and the one way it passes (R36). -/
theorem checkAddress_cases (memSize : Nat) (ea : Int) :
    (ea < 0 ∧ checkAddress memSize ea = .error .negativeEffectiveAddress) ∨
    (0 ≤ ea ∧ (memSize : Int) ≤ ea ∧ checkAddress memSize ea = .error .addressOutOfRange) ∨
    ∃ a : Nat, (a : Int) = ea ∧ a < memSize ∧ checkAddress memSize ea = .ok a := by
  unfold checkAddress
  split
  · next h => exact Or.inl ⟨h, rfl⟩
  · next h =>
    split
    · next h' => exact Or.inr (Or.inl ⟨by omega, h', rfl⟩)
    · exact Or.inr (Or.inr ⟨ea.toNat, by omega, by omega, rfl⟩)

/-- An address that passes the check is the effective address itself, inside memory. -/
theorem checkAddress_eq_ok {memSize : Nat} {ea : Int} {a : Nat} :
    checkAddress memSize ea = .ok a ↔ (a : Int) = ea ∧ a < memSize := by
  unfold checkAddress
  constructor
  · intro h
    split at h
    · cases h
    · split at h
      · cases h
      · cases h; omega
  · rintro ⟨rfl, h⟩
    rw [if_neg (by omega), if_neg (by omega)]
    simp

/-- A target fails the check exactly when it is negative (R113). -/
theorem checkTarget_cases (t : Int) :
    (t < 0 ∧ checkTarget t = .error .negativeTarget) ∨ ∃ p : Nat, (p : Int) = t ∧ checkTarget t = .ok p := by
  unfold checkTarget
  split
  · next h => exact Or.inl ⟨h, rfl⟩
  · exact Or.inr ⟨t.toNat, by omega, rfl⟩

/-! ## Meanings -/

variable (s : State)

theorem exec_add (a b d : RegIdx) : exec (.add a b d) s =
    .next ((s.writeReg d (wrap32 (s32 (s.readReg a) + s32 (s.readReg b)))).commit (s.pc + 1)) := rfl

theorem exec_nand (a b d : RegIdx) : exec (.nand a b d) s =
    .next ((s.writeReg d (~~~(s.readReg a &&& s.readReg b))).commit (s.pc + 1)) := rfl

theorem exec_halt : exec .halt s = .next { s.commit (s.pc + 1) with status := .halted } := rfl

theorem exec_noop : exec .noop s = .next (s.commit (s.pc + 1)) := rfl

/-- Everything lw can answer (R101). -/
theorem exec_lw_cases (a b : RegIdx) (offset : Int) :
    (s32 (s.readReg a) + offset < 0 ∧ exec (.lw a b offset) s = .next (s.fatalEntry .negativeEffectiveAddress)) ∨
    (0 ≤ s32 (s.readReg a) + offset ∧ (s.params.memSize : Int) ≤ s32 (s.readReg a) + offset ∧
      exec (.lw a b offset) s = .next (s.fatalEntry .addressOutOfRange)) ∨
    ∃ ea : Nat, (ea : Int) = s32 (s.readReg a) + offset ∧ ea < s.params.memSize ∧
      exec (.lw a b offset) s = .next ((s.writeReg b (s.memRead ea)).commit (s.pc + 1)) := by
  show _ ∨ _ ∨ ∃ ea : Nat, _ ∧ _ ∧ whenOk (checkAddress _ _) s _ = _
  rcases checkAddress_cases s.params.memSize (s32 (s.readReg a) + offset) with
    ⟨h, e⟩ | ⟨h, h', e⟩ | ⟨ea, h, h', e⟩
  · exact Or.inl ⟨h, by show whenOk (checkAddress _ _) s _ = _; rw [effectiveAddress, e]; rfl⟩
  · exact Or.inr (Or.inl ⟨h, h', by show whenOk (checkAddress _ _) s _ = _; rw [effectiveAddress, e]; rfl⟩)
  · exact Or.inr (Or.inr ⟨ea, h, h', by rw [effectiveAddress, e]; rfl⟩)

/-- Everything sw can answer (R102). -/
theorem exec_sw_cases (a b : RegIdx) (offset : Int) :
    (s32 (s.readReg a) + offset < 0 ∧ exec (.sw a b offset) s = .next (s.fatalEntry .negativeEffectiveAddress)) ∨
    (0 ≤ s32 (s.readReg a) + offset ∧ (s.params.memSize : Int) ≤ s32 (s.readReg a) + offset ∧
      exec (.sw a b offset) s = .next (s.fatalEntry .addressOutOfRange)) ∨
    ∃ ea : Nat, (ea : Int) = s32 (s.readReg a) + offset ∧ ea < s.params.memSize ∧
      exec (.sw a b offset) s = .next ((s.memWrite ea (s.readReg b)).commit (s.pc + 1)) := by
  show _ ∨ _ ∨ ∃ ea : Nat, _ ∧ _ ∧ whenOk (checkAddress _ _) s _ = _
  rcases checkAddress_cases s.params.memSize (s32 (s.readReg a) + offset) with
    ⟨h, e⟩ | ⟨h, h', e⟩ | ⟨ea, h, h', e⟩
  · exact Or.inl ⟨h, by show whenOk (checkAddress _ _) s _ = _; rw [effectiveAddress, e]; rfl⟩
  · exact Or.inr (Or.inl ⟨h, h', by show whenOk (checkAddress _ _) s _ = _; rw [effectiveAddress, e]; rfl⟩)
  · exact Or.inr (Or.inr ⟨ea, h, h', by rw [effectiveAddress, e]; rfl⟩)

/-- Everything beq can answer (R110). -/
theorem exec_beq_cases (a b : RegIdx) (offset : Int) :
    (s.readReg a = s.readReg b ∧ (s.pc : Int) + 1 + offset < 0 ∧
      exec (.beq a b offset) s = .next (s.fatalEntry .negativeTarget)) ∨
    (∃ p : Nat, s.readReg a = s.readReg b ∧ (p : Int) = (s.pc : Int) + 1 + offset ∧
      exec (.beq a b offset) s = .next (s.commit p)) ∨
    (s.readReg a ≠ s.readReg b ∧ exec (.beq a b offset) s = .next (s.commit (s.pc + 1))) := by
  by_cases h : s.readReg a = s.readReg b
  · have e : exec (.beq a b offset) s = whenOk (checkTarget (branchTarget s offset)) s fun t => s.commit t := by
      show execBeq a b offset s = _
      simp [execBeq, regsEqual, h]
    rw [e]
    rcases checkTarget_cases (branchTarget s offset) with ⟨h', e'⟩ | ⟨p, h', e'⟩
    · exact Or.inl ⟨h, h', by rw [e']; rfl⟩
    · exact Or.inr (Or.inl ⟨p, h, h', by rw [e']; rfl⟩)
  · refine Or.inr (Or.inr ⟨h, ?_⟩)
    show execBeq a b offset s = _
    simp [execBeq, regsEqual, h]

/-- Everything jalr can answer (R111). -/
theorem exec_jalr_cases (a b : RegIdx) :
    (a ≠ b ∧ s32 (s.readReg a) < 0 ∧ exec (.jalr a b) s = .next (s.fatalEntry .negativeTarget)) ∨
    (∃ p : Nat, a ≠ b ∧ (p : Int) = s32 (s.readReg a) ∧
      exec (.jalr a b) s = .next ((s.writeReg b (linkValue s)).commit p)) ∨
    (a = b ∧ exec (.jalr a b) s = .next ((s.writeReg b (linkValue s)).commit (s.pc + 1))) := by
  have e : exec (.jalr a b) s =
      whenOk (checkTarget (jumpTarget s a b)) s fun t => (s.writeReg b (linkValue s)).commit t := rfl
  by_cases h : a = b
  · refine Or.inr (Or.inr ⟨h, ?_⟩)
    rw [e, jumpTarget, if_pos h, checkTarget, if_neg (by omega)]
    simp only [whenOk]
    congr 2
  · rw [e, jumpTarget, if_neg h]
    rcases checkTarget_cases (s32 (s.readReg a)) with ⟨h', e'⟩ | ⟨p, h', e'⟩
    · exact Or.inl ⟨h, h', by rw [e']; rfl⟩
    · exact Or.inr (Or.inl ⟨p, h, h', by rw [e']; rfl⟩)

/-- No meaning faults or refuses: every instruction has a next state from every state. -/
theorem exec_answers_next (i : Instr) : ∃ t, exec i s = .next t := by
  cases i with
  | add a b d => exact ⟨_, rfl⟩
  | nand a b d => exact ⟨_, rfl⟩
  | lw a b o => rcases exec_lw_cases s a b o with ⟨_, e⟩ | ⟨_, _, e⟩ | ⟨_, _, _, e⟩ <;> exact ⟨_, e⟩
  | sw a b o => rcases exec_sw_cases s a b o with ⟨_, e⟩ | ⟨_, _, e⟩ | ⟨_, _, _, e⟩ <;> exact ⟨_, e⟩
  | beq a b o => rcases exec_beq_cases s a b o with ⟨_, _, e⟩ | ⟨_, _, _, e⟩ | ⟨_, e⟩ <;> exact ⟨_, e⟩
  | jalr a b => rcases exec_jalr_cases s a b with ⟨_, _, e⟩ | ⟨_, _, _, e⟩ | ⟨_, e⟩ <;> exact ⟨_, e⟩
  | halt => exact ⟨_, rfl⟩
  | noop => exact ⟨_, rfl⟩

/-- The three ways an instruction ends: it completes with the status as it was, it is halt, or it is the entry of a
Fatal of its own (R74). -/
theorem exec_status_cases {i : Instr} {s t : State} (h : exec i s = .next t) :
    (t.status = s.status ∧ i ≠ .halt ∧ t.instructionsExecuted = s.instructionsExecuted + 1) ∨
    (t.status = .halted ∧ i = .halt ∧ t.instructionsExecuted = s.instructionsExecuted + 1) ∨
    (i ≠ .halt ∧ ((t = s.fatalEntry .negativeEffectiveAddress ∧
        ∃ a b o, (i = .lw a b o ∨ i = .sw a b o) ∧ s32 (s.readReg a) + o < 0) ∨
      (t = s.fatalEntry .addressOutOfRange ∧
        ∃ a b o, (i = .lw a b o ∨ i = .sw a b o) ∧ 0 ≤ s32 (s.readReg a) + o ∧
          (s.params.memSize : Int) ≤ s32 (s.readReg a) + o) ∨
      (t = s.fatalEntry .negativeTarget ∧
        ((∃ a b o, i = .beq a b o ∧ s.readReg a = s.readReg b ∧ (s.pc : Int) + 1 + o < 0) ∨
          ∃ a b, i = .jalr a b ∧ a ≠ b ∧ s32 (s.readReg a) < 0)))) := by
  cases i with
  | add a b d => cases h; exact Or.inl ⟨rfl, nofun, rfl⟩
  | nand a b d => cases h; exact Or.inl ⟨rfl, nofun, rfl⟩
  | lw a b o =>
    rcases exec_lw_cases s a b o with ⟨c, e⟩ | ⟨c, c', e⟩ | ⟨_, _, _, e⟩ <;> rw [e] at h <;> cases h
    · exact Or.inr (Or.inr ⟨nofun, Or.inl ⟨rfl, a, b, o, Or.inl rfl, c⟩⟩)
    · exact Or.inr (Or.inr ⟨nofun, Or.inr (Or.inl ⟨rfl, a, b, o, Or.inl rfl, c, c'⟩)⟩)
    · exact Or.inl ⟨rfl, nofun, rfl⟩
  | sw a b o =>
    rcases exec_sw_cases s a b o with ⟨c, e⟩ | ⟨c, c', e⟩ | ⟨_, _, _, e⟩ <;> rw [e] at h <;> cases h
    · exact Or.inr (Or.inr ⟨nofun, Or.inl ⟨rfl, a, b, o, Or.inr rfl, c⟩⟩)
    · exact Or.inr (Or.inr ⟨nofun, Or.inr (Or.inl ⟨rfl, a, b, o, Or.inr rfl, c, c'⟩)⟩)
    · exact Or.inl ⟨rfl, nofun, rfl⟩
  | beq a b o =>
    rcases exec_beq_cases s a b o with ⟨c, c', e⟩ | ⟨_, _, _, e⟩ | ⟨_, e⟩ <;> rw [e] at h <;> cases h
    · exact Or.inr (Or.inr ⟨nofun, Or.inr (Or.inr ⟨rfl, Or.inl ⟨a, b, o, rfl, c, c'⟩⟩)⟩)
    · exact Or.inl ⟨rfl, nofun, rfl⟩
    · exact Or.inl ⟨rfl, nofun, rfl⟩
  | jalr a b =>
    rcases exec_jalr_cases s a b with ⟨c, c', e⟩ | ⟨_, _, _, e⟩ | ⟨_, e⟩ <;> rw [e] at h <;> cases h
    · exact Or.inr (Or.inr ⟨nofun, Or.inr (Or.inr ⟨rfl, Or.inr ⟨a, b, rfl, c, c'⟩⟩)⟩)
    · exact Or.inl ⟨rfl, nofun, rfl⟩
    · exact Or.inl ⟨rfl, nofun, rfl⟩
  | halt => cases h; exact Or.inr (Or.inl ⟨rfl, rfl, rfl⟩)
  | noop => cases h; exact Or.inl ⟨rfl, nofun, rfl⟩

/-! ## The step -/

/-- A step where the gate holds and the word decodes. -/
theorem step_of_decode {s : State} {i : Instr} (h : s.StepEnabled) (hd : decode (s.memRead s.pc) = .ok i) :
    step s = exec i s := by
  have : decode (fetchWord s) = .ok i := hd
  simp [step, h, execWord, this]

/-- A step where the gate holds and the word is no instruction. -/
theorem step_of_reject {s : State} {e : Reject} (h : s.StepEnabled) (hd : decode (s.memRead s.pc) = .error e) :
    step s = .next (s.fatalEntry (rejectReason e)) := by
  have : decode (fetchWord s) = .error e := hd
  simp [step, h, execWord, this, raiseFatal]

/-- No step is made where the gate does not hold. -/
theorem step_of_not_enabled {s : State} (h : ¬ s.StepEnabled) : step s = .fault .runEnded := by
  simp [step, h]

/-- Everything a step that is made can be: the Fatal entry of a word that is no instruction, or an instruction. -/
theorem step_next_cases {s t : State} (h : step s = .next t) :
    s.StepEnabled ∧ ((∃ e, decode (s.memRead s.pc) = .error e ∧ t = s.fatalEntry (rejectReason e)) ∨
      ∃ i, decode (s.memRead s.pc) = .ok i ∧ exec i s = .next t) := by
  by_cases hg : s.StepEnabled
  · refine ⟨hg, ?_⟩
    cases hd : decode (s.memRead s.pc) with
    | error e =>
      rw [step_of_reject hg hd] at h
      exact Or.inl ⟨e, rfl, (Host.Outcome.next.inj h).symm⟩
    | ok i =>
      rw [step_of_decode hg hd] at h
      exact Or.inr ⟨i, rfl, h⟩
  · rw [step_of_not_enabled hg] at h
    cases h

/-- Where the gate holds there is a next state. -/
theorem step_answers_next {s : State} (h : s.StepEnabled) : ∃ t, step s = .next t := by
  cases hd : decode (s.memRead s.pc) with
  | error e => exact ⟨_, step_of_reject h hd⟩
  | ok i => rw [step_of_decode h hd]; exact exec_answers_next s i

/-! ## Runs -/

/-- A run that has ended stays where it is (R133). -/
theorem runFor_of_not_enabled {s : State} (h : ¬ s.StepEnabled) (n : Nat) : runFor n s = s := by
  cases n with
  | zero => rfl
  | succ n => rw [runFor, step_of_not_enabled h]

/-- The first step of a run. -/
theorem runFor_of_step {s t : State} (h : step s = .next t) (n : Nat) : runFor (n + 1) s = runFor n t := by
  rw [runFor, h]

/-- The last step of a run: `n + 1` steps are one step after `n`. -/
theorem runFor_succ (n : Nat) (s : State) : runFor (n + 1) s = runFor 1 (runFor n s) := by
  induction n generalizing s with
  | zero => rfl
  | succ n ih =>
    by_cases h : s.StepEnabled
    · obtain ⟨t, e⟩ := step_answers_next h
      rw [runFor_of_step e, runFor_of_step e, ih]
    · rw [runFor_of_not_enabled h, runFor_of_not_enabled h, runFor_of_not_enabled h]

/-- What every step keeps, every run keeps. -/
theorem runFor_keeps {P : State → Prop} (hstep : ∀ s t, P s → step s = .next t → P t) (n : Nat) {s : State}
    (h : P s) : P (runFor n s) := by
  induction n generalizing s with
  | zero => exact h
  | succ n ih =>
    by_cases hg : s.StepEnabled
    · obtain ⟨t, e⟩ := step_answers_next hg
      rw [runFor_of_step e]
      exact ih (hstep s t h e)
    · rw [runFor_of_not_enabled hg]
      exact h

end Sys2Proof.Machine
end

