-- ==== Sys2Proof/Laws/Fetch.lean ====
section
/-! SUPPORT. That `State.withFetchWord` does what it is for: the next step runs the word placed. -/

namespace Sys2Proof.Machine

/-- With a ceiling above 0 and a canonical memory, the step after `withFetchWord` is made and runs the word. -/
theorem step_withFetchWord (s : State) (nbits w : Nat) (hm : Memory.wf s.mem) (hc : 0 < s.params.ceiling) :
    step (s.withFetchWord nbits w) =
      execWord (BitVec.ofNat 32 (w % 2 ^ nbits)) (s.withFetchWord nbits w) := by
  have hg : (s.withFetchWord nbits w).StepEnabled := by
    refine ⟨rfl, ?_, ?_⟩
    · show s.pc < max s.loadedSize (s.pc + 1)
      omega
    · show (if _ then _ else _) < s.params.ceiling
      split <;> omega
  have hf : fetchWord (s.withFetchWord nbits w) = BitVec.ofNat 32 (w % 2 ^ nbits) :=
    Memory.read_write_self s.pc _ hm
  rw [step, if_pos hg, hf]

end Sys2Proof.Machine
end

