-- ==== Sys2Proof/Laws/PerInstr.lean ====
section
/-! SUPPORT. Facts about the syntax, one lemma per constructor. -/

namespace Sys2Proof.Laws.EncodedFields

/-- The fields of an instruction's canonical encoding stand where R51 puts them, the reserved bits are zero (R58), and
the opcode's unused bits are zero (R59). -/
def Statement (i : Instr) : Prop :=
  slice (encode i) 31 25 = 0 ∧ slice (encode i) 24 22 = i.opcode.code ∧ slice (encode i) 21 19 = i.fieldA ∧
  slice (encode i) 18 16 = i.fieldB ∧ slice (encode i) 15 0 = i.low16 ∧ encode i &&& unusedMask i.opcode = 0

/-- The five fields of any encoding, from the sum of R65. -/
theorem fields_of_encode (i : Instr) :
    slice (encode i) 31 25 = 0 ∧ slice (encode i) 24 22 = i.opcode.code ∧ slice (encode i) 21 19 = i.fieldA ∧
    slice (encode i) 18 16 = i.fieldB ∧ slice (encode i) 15 0 = i.low16 := by
  have h1 := i.opcode.code_lt
  have h2 := i.fieldA_lt
  have h3 := i.fieldB_lt
  have h4 := i.low16_lt
  simp only [slice, u32, encode_toNat, Instr.encodeNat]
  norm_num
  refine ⟨?_, ?_, ?_, ?_, ?_⟩ <;> omega

/-- The statement follows once the unused bits are known to be zero. -/
theorem of_unused (i : Instr) (h : encode i &&& unusedMask i.opcode = 0) : Statement i := by
  obtain ⟨h1, h2, h3, h4, h5⟩ := fields_of_encode i
  exact ⟨h1, h2, h3, h4, h5, h⟩

theorem add (a b d : RegIdx) : Statement (.add a b d) := by
  have hd := d.isLt
  refine of_unused _ ((unusedMask_test _ .add).mpr ?_)
  simp only [slice, u32, encode_toNat, Instr.encodeNat, Instr.opcode, Opcode.code, Instr.fieldA, Instr.fieldB,
    Instr.low16]
  norm_num
  omega

theorem nand (a b d : RegIdx) : Statement (.nand a b d) := by
  have hd := d.isLt
  refine of_unused _ ((unusedMask_test _ .nand).mpr ?_)
  simp only [slice, u32, encode_toNat, Instr.encodeNat, Instr.opcode, Opcode.code, Instr.fieldA, Instr.fieldB,
    Instr.low16]
  norm_num
  omega

theorem lw (a b : RegIdx) (offset : Int) : Statement (.lw a b offset) :=
  of_unused _ ((unusedMask_test _ .lw).mpr trivial)

theorem sw (a b : RegIdx) (offset : Int) : Statement (.sw a b offset) :=
  of_unused _ ((unusedMask_test _ .sw).mpr trivial)

theorem beq (a b : RegIdx) (offset : Int) : Statement (.beq a b offset) :=
  of_unused _ ((unusedMask_test _ .beq).mpr trivial)

theorem jalr (a b : RegIdx) : Statement (.jalr a b) :=
  of_unused _ ((unusedMask_test _ .jalr).mpr (fields_of_encode (.jalr a b)).2.2.2.2)

theorem halt : Statement .halt :=
  of_unused _ ((unusedMask_test _ .halt).mpr (by decide))

theorem noop : Statement .noop :=
  of_unused _ ((unusedMask_test _ .noop).mpr (by decide))

end Sys2Proof.Laws.EncodedFields
end

