-- ==== Sys2Proof/Tests/Slice0.lean ====
section
/-! SUPPORT. Small tests, each one step or one decoding. Expected results are the worked examples and vectors of
95_test_vectors.md and of the instruction rules (their ids stand in the comments), or follow by hand from the rule
named. The second half shows, for every statement with hypotheses, a state and operands that meet them. -/

namespace Sys2Proof.Tests

open Sys2Proof.Machine

/-! ## Helpers -/

/-- The next state, if there is one. -/
def nextOf : Host.Outcome State Fault Refusal → Option State
  | .next s => some s
  | .fault _ => none
  | .refused _ => none

theorem eq_next {o : Host.Outcome State Fault Refusal} {t : State} (h : nextOf o = some t) : o = .next t := by
  cases o with
  | next s => rw [Option.some.inj h]
  | fault r => cases h
  | refused r => cases h

/-- A state at address `pc` with `x[1] = p`, `x[2] = q`, every other register 0, the words `image` loaded. -/
def stateAt (pc : Nat) (p q : Word) (image : List Word) : State :=
  { (((State.boot Params.default image).writeReg 1 p).writeReg 2 q) with pc := pc }

/-! ## WellFormed refuses what no encoding exists for (R64) -/

theorem test_wf_refuses_lw_offset_above : (Instr.lw 0 0 32768).wellFormed = false := by decide
theorem test_wf_refuses_lw_offset_below : (Instr.lw 0 0 (-32769)).wellFormed = false := by decide
theorem test_wf_refuses_sw_offset_above : (Instr.sw 0 0 32768).wellFormed = false := by decide
theorem test_wf_refuses_sw_offset_below : (Instr.sw 0 0 (-32769)).wellFormed = false := by decide
theorem test_wf_refuses_beq_offset_above : (Instr.beq 0 0 32768).wellFormed = false := by decide
theorem test_wf_refuses_beq_offset_below : (Instr.beq 0 0 (-32769)).wellFormed = false := by decide
theorem test_wf_takes_the_bounds :
    (Instr.lw 7 7 32767).wellFormed = true ∧ (Instr.beq 7 7 (-32768)).wellFormed = true := by decide

/-! ## Decoding: words written out from R53 to R55, opcode regA regB low16 -/

/-- V-C1 -/
theorem test_decode_add : decode 0b0000000_000_001_010_0000000000000011 = .ok (.add 1 2 3) := by rfl
/-- V-C2 -/
theorem test_decode_nand : decode 0b0000000_001_111_111_0000000000000111 = .ok (.nand 7 7 7) := by rfl
/-- V-D14 -/
theorem test_decode_lw : decode 0b0000000_010_111_111_1000000000000000 = .ok (.lw 7 7 (-32768)) := by rfl
/-- V-C4: regA is the base, regB the data -/
theorem test_decode_sw : decode 0b0000000_011_011_101_1111111111111100 = .ok (.sw 3 5 (-4)) := by rfl
/-- V-C6 -/
theorem test_decode_beq : decode 0b0000000_100_000_001_0000000000000010 = .ok (.beq 0 1 2) := by rfl
/-- V-C7 -/
theorem test_decode_jalr : decode 0b0000000_101_100_111_0000000000000000 = .ok (.jalr 4 7) := by rfl
/-- V-C8 -/
theorem test_decode_halt : decode 0b0000000_110_000_000_0000000000000000 = .ok .halt := by rfl
/-- V-C9 -/
theorem test_decode_noop : decode 0b0000000_111_000_000_0000000000000000 = .ok .noop := by rfl
/-- R71's worked example, V-D3 -/
theorem test_decodeFields : decodeFields 0x00DDFFFC = ⟨.sw, 3, 5, 4, -4⟩ := by decide
/-- V-E7: bits 4 and 3 of add are ignored -/
theorem test_decode_ignores_bits_4_3 : decode 0x000A001B = .ok (.add 1 2 3) := by rfl
/-- V-E3, V-E5, V-E4, V-E6 -/
theorem test_decode_unused : decode 0x000A0020 = .error .unusedFieldViolation ∧
    decode 0x014A0001 = .error .unusedFieldViolation ∧ decode 0x01880000 = .error .unusedFieldViolation ∧
    decode 0x01C00001 = .error .unusedFieldViolation := ⟨rfl, rfl, rfl, rfl⟩
/-- V-E13: two defects, the reserved bits win (R157) -/
theorem test_decode_reserved_first : decode 0x06000020 = .error .malformedEncoding := by rfl
/-- V-C4, V-C3: the canonical encodings (R65) -/
theorem test_encode : encode (.sw 3 5 (-4)) = 14548988 ∧ encode (.lw 0 1 7) = 8454151 := by decide
/-- V-D10 through the host's entry -/
theorem test_decodeTableWord : decodeTableWord 32 0x01C00000 = some .noop := by rfl

/-! ## One step per instruction, at most two tests each -/

/-- V-A1, with a source as destination: `add 1 2 1` -/
theorem test_add : (nextOf (step (stateAt 0 5 (-1) [655361]))).map (fun t => (t.readReg 1, t.readReg 2, t.pc)) =
    some (4, -1, 1) := by decide
/-- V-A3 and V-A13: the sum wraps, and register 0 takes a write -/
theorem test_add_wraps_into_x0 : (nextOf (exec (.add 1 2 0) (stateAt 0 2147483647 1 []))).map (·.readReg 0) =
    some 0x80000000 := by decide
/-- V-A10 -/
theorem test_nand : (nextOf (step (stateAt 0 0x0F0F0F0F 0x00FF00FF [4849667]))).map (fun t => (t.readReg 3, t.pc)) =
    some (0xFFF0FFF0, 1) := by decide
/-- V-M2: base and destination the same -/
theorem test_lw : (nextOf (exec (.lw 1 1 (-2)) ((stateAt 0 10 0 []).memWrite 8 (-1)))).map
    (fun t => (t.readReg 1, t.pc)) = some (-1, 1) := by decide
/-- V-M12: the exact sum 2^31 is past the end of memory, not negative -/
theorem test_lw_exact_sum : (nextOf (exec (.lw 1 2 1) (stateAt 0 2147483647 0 []))).map (·.status) =
    some (.fatal .addressOutOfRange) := by decide
/-- V-M3, its shape with registers 1 and 2: `sw 1 2 -4` -/
theorem test_sw : (nextOf (exec (.sw 1 2 (-4)) (stateAt 0 10 (-7) [0, 0, 0, 0]))).map
    (fun t => (t.memRead 6, t.loadedSize, t.pc)) = some (-7, 7, 1) := by decide
/-- V-M11: the top word -/
theorem test_sw_top_word : (nextOf (exec (.sw 1 1 0) (stateAt 0 65535 0 []))).map
    (fun t => (t.memRead 65535, t.loadedSize, t.status)) = some (65535, 65536, .run) := by decide
/-- V-B1 -/
theorem test_beq_taken : (nextOf (exec (.beq 0 1 2) (stateAt 3 0 0 []))).map
    (fun t => (t.pc, t.instructionsExecuted)) = some (6, 1) := by decide
/-- V-B9: not taken, so the negative target does not matter -/
theorem test_beq_not_taken : (nextOf (exec (.beq 0 1 (-5)) (stateAt 1 1 0 []))).map (fun t => (t.pc, t.status)) =
    some (2, .run) := by decide
/-- V-B6: equal registers, link first -/
theorem test_jalr_same_register : (nextOf (exec (.jalr 1 1) (stateAt 0 (-7) 0 []))).map
    (fun t => (t.readReg 1, t.pc, t.status)) = some (1, 1, .run) := by decide
/-- V-B5's shape: `jalr 1 2` at 2 with `x[1] = 5` -/
theorem test_jalr : (nextOf (exec (.jalr 1 2) (stateAt 2 5 0 []))).map (fun t => (t.readReg 2, t.pc)) =
    some (3, 5) := by decide
/-- V-H1, S7 -/
theorem test_halt : (nextOf (step (stateAt 0 0 0 [25165824]))).map
    (fun t => (t.status, t.pc, t.instructionsExecuted)) = some (.halted, 1, 1) := by decide
/-- the example of R121 -/
theorem test_noop : (nextOf (exec .noop (stateAt 5 0 0 []))).map (fun t => (t.pc, t.status)) = some (6, .run) := by decide
/-- V-F1's second step: the Fatal keeps pc and the count -/
theorem test_fatal_entry : (nextOf (step (stateAt 1 0 0 [29360128, -1]))).map
    (fun t => (t.status, t.pc, t.instructionsExecuted)) = some (.fatal .malformedEncoding, 1, 0) := by decide
/-- V-R2: nothing runs from an empty image -/
theorem test_empty_image : step State.reset = .fault .runEnded := by rfl
/-- the ceiling is compared with `<` (R130, C1): at the ceiling no step is made -/
theorem test_ceiling : nextOf (step { stateAt 0 0 0 [29360128] with instructionsExecuted := 1000 }) = none ∧
    (nextOf (step { stateAt 0 0 0 [29360128] with instructionsExecuted := 999 })).isSome = true := by decide
/-- the host's placing of a word: `add 0 0 1` runs as the first instruction after reset -/
theorem test_withFetchWord : (nextOf (step (State.reset.withFetchWord 32 1))).map
    (fun t => (t.pc, t.instructionsExecuted, t.loadedSize)) = some (1, 1, 1) := by decide
/-- R138, R136: the views of the host -/
theorem test_views : (stateAt 0 5 0 [7, 9]).trace = ⟨0, [7, 9], [0, 5, 0, 0, 0, 0, 0, 0]⟩ ∧
    (stateAt 0 5 0 []).report = ⟨0, false⟩ := by decide

/-! ## Witnesses: the hypotheses of every statement can be met, each clause at a boundary -/

theorem witness_EncodeIsCanonicalAndDecodesBack :
    (Instr.lw 7 7 (-32768)).wellFormed = true ∧ (Instr.sw 7 7 32767).wellFormed = true := by decide

theorem witness_DecodedWordIsItsCanonicalEncoding :
    decode 0x000A001B = .ok (.add 1 2 3) ∧ decode 0x00FF7FFF = .ok (.sw 7 7 32767) := ⟨rfl, rfl⟩

theorem witness_OffsetFieldIsSignExtended : slice 0x7FFF 15 0 < 0x8000 ∧ 0x8000 ≤ slice 0x8000 15 0 := by decide

theorem witness_UncheckedBitsAreIgnored :
    ((0x000A001B : Word) &&& 0xFFFFFFE7 = 0x000A0003 &&& 0xFFFFFFE7 ∧ slice 0x000A001B 24 22 = 0) ∧
    (slice 0x004A001B 24 22 = 1 ∧ slice 0x004A001B 31 25 = 0 ∧ slice 0x004A001B 15 5 = 0) := by decide

/-- Met by the one-noop image; the hypothesis `StepEnabled` alone is met by the same state. -/
theorem witness_StepRunsTheDecodedInstruction :
    (stateAt 0 0 0 [29360128]).StepEnabled ∧
    decode ((stateAt 0 0 0 [29360128]).memRead (stateAt 0 0 0 [29360128]).pc) = .ok .noop := ⟨by decide, rfl⟩

/-- At the last count before the ceiling. -/
theorem witness_ReservedBitsAreFatal :
    ({ stateAt 0 0 0 [58720256] with instructionsExecuted := 999 } : State).StepEnabled := by decide

theorem witness_UnusedBitsAreFatal : (stateAt 0 0 0 [655392]).StepEnabled := by decide

/-- V-E2: a Fatal step. -/
theorem witness_FatalStepsChangeOnlyTheStatus : ∃ s t r, step s = .next t ∧ t.status = .fatal r :=
  ⟨stateAt 0 0 0 [-1], (stateAt 0 0 0 [-1]).fatalEntry .malformedEncoding, .malformedEncoding, eq_next (by decide), rfl⟩

/-- The step of a noop: the hypothesis of the statements about any step (UnknownOpcodeIsNeverRaised,
OnlyTheHaltWordHalts, StepKeepsTheRunParameters). -/
theorem witness_step_next : ∃ s t, step s = .next t :=
  ⟨stateAt 0 0 0 [29360128], (stateAt 0 0 0 [29360128]).commit 1, eq_next (by decide)⟩

/-- Both clauses: a step that completes, and one that ends Fatal. -/
theorem witness_CompletedStepsAreCounted :
    (∃ s t, step s = .next t ∧ t.NotFatal) ∧ (∃ s t, step s = .next t ∧ ¬ t.NotFatal) :=
  ⟨⟨stateAt 0 0 0 [29360128], (stateAt 0 0 0 [29360128]).commit 1, eq_next (by decide), fun _ h => by cases h⟩,
    ⟨stateAt 0 0 0 [-1], (stateAt 0 0 0 [-1]).fatalEntry .malformedEncoding, eq_next (by decide), fun h => h _ rfl⟩⟩

theorem witness_AddressFatalsAreRaisedByLoadsAndStoresOutOfRange : State.reset.status = .run := by rfl

theorem witness_NegativeTargetsAreFatal : (stateAt 0 (-7) 0 []).status = .run := by rfl

/-- The step clause: bit 5 set, the lowest that counts, and bits 4 and 3 set, which do not. -/
theorem witness_AddWritesTheWrappedSum :
    ((stateAt 0 0 0 [655392]).StepEnabled ∧ slice ((stateAt 0 0 0 [655392]).memRead 0) 31 25 = 0 ∧
      slice ((stateAt 0 0 0 [655392]).memRead 0) 24 22 = 0 ∧ slice ((stateAt 0 0 0 [655392]).memRead 0) 15 5 ≠ 0) ∧
    (stateAt 0 0 0 [655387]).StepEnabled ∧ slice ((stateAt 0 0 0 [655387]).memRead 0) 31 25 = 0 ∧
      slice ((stateAt 0 0 0 [655387]).memRead 0) 24 22 = 0 ∧ slice ((stateAt 0 0 0 [655387]).memRead 0) 15 5 = 0 := by decide

/-- The step clause: bit 15 set, the highest that counts, and bits 4 and 3 set, which do not (V-E8). -/
theorem witness_NandWritesTheNegatedConjunction :
    ((stateAt 0 0 0 [4882435]).StepEnabled ∧ slice ((stateAt 0 0 0 [4882435]).memRead 0) 31 25 = 0 ∧
      slice ((stateAt 0 0 0 [4882435]).memRead 0) 24 22 = 1 ∧
      slice ((stateAt 0 0 0 [4882435]).memRead 0) 15 5 ≠ 0) ∧
    (stateAt 0 0 0 [4849691]).StepEnabled ∧ slice ((stateAt 0 0 0 [4849691]).memRead 0) 31 25 = 0 ∧
      slice ((stateAt 0 0 0 [4849691]).memRead 0) 24 22 = 1 ∧
      slice ((stateAt 0 0 0 [4849691]).memRead 0) 15 5 = 0 := by decide

/-- V-M7, V-M9, V-M10 and address 0: the four borders of the three address clauses. -/
theorem witness_LoadReadsTheAddressedWord :
    s32 ((stateAt 0 65536 0 []).readReg 0) + (-1) < 0 ∧
    (0 ≤ s32 ((stateAt 0 65536 0 []).readReg 1) + 0 ∧
      ((stateAt 0 65536 0 []).params.memSize : Int) ≤ s32 ((stateAt 0 65536 0 []).readReg 1) + 0) ∧
    (((65535 : Nat) : Int) = s32 ((stateAt 0 65536 0 []).readReg 1) + (-1) ∧
      65535 < (stateAt 0 65536 0 []).params.memSize) ∧
    (((0 : Nat) : Int) = s32 ((stateAt 0 65536 0 []).readReg 0) + 0 ∧ 0 < (stateAt 0 65536 0 []).params.memSize) := by decide

/-- Addresses -1 (V-M8), 65536, 65535 (V-M11) and 0, in a canonical memory. -/
theorem witness_StoreWritesTheAddressedWord :
    s32 ((stateAt 0 65535 0 []).readReg 0) + (-1) < 0 ∧
    (0 ≤ s32 ((stateAt 0 65535 0 []).readReg 1) + 1 ∧
      ((stateAt 0 65535 0 []).params.memSize : Int) ≤ s32 ((stateAt 0 65535 0 []).readReg 1) + 1) ∧
    (((0 : Nat) : Int) = s32 ((stateAt 0 65535 0 []).readReg 0) + 0 ∧
      0 < (stateAt 0 65535 0 []).params.memSize) ∧
    (((65535 : Nat) : Int) = s32 ((stateAt 0 65535 0 []).readReg 1) + 0 ∧ 65535 < (stateAt 0 65535 0 []).params.memSize) ∧
    Memory.wf (stateAt 0 65535 0 []).mem := by decide

/-- V-B8 (taken, target -1); taken with target 0; not taken with a negative sum (V-B9). -/
theorem witness_BranchGoesToTheTargetWhenEqual :
    ((stateAt 0 1 0 []).readReg 0 = (stateAt 0 1 0 []).readReg 0 ∧ ((stateAt 0 1 0 []).pc : Int) + 1 + (-2) < 0) ∧
    ¬ ((stateAt 0 1 0 []).readReg 0 = (stateAt 0 1 0 []).readReg 0 ∧ ((stateAt 0 1 0 []).pc : Int) + 1 + (-1) < 0) ∧
    ¬ ((stateAt 1 1 0 []).readReg 0 = (stateAt 1 1 0 []).readReg 1 ∧ ((stateAt 1 1 0 []).pc : Int) + 1 + (-5) < 0) := by decide

/-- V-E5; V-B7 with -1; target 0 and the greatest target, with different registers; equal registers. -/
theorem witness_JumpLinksAndGoesToTheRegister :
    ((stateAt 0 0 0 [21626881]).StepEnabled ∧ slice ((stateAt 0 0 0 [21626881]).memRead 0) 31 25 = 0 ∧
      slice ((stateAt 0 0 0 [21626881]).memRead 0) 24 22 = 5 ∧ slice ((stateAt 0 0 0 [21626881]).memRead 0) 15 0 ≠ 0) ∧
    ((1 : RegIdx) ≠ 2 ∧ s32 ((stateAt 0 (-1) 0 []).readReg 1) < 0) ∧
    0 ≤ s32 ((stateAt 0 0 0 []).readReg 1) ∧ 0 ≤ s32 ((stateAt 0 2147483647 0 []).readReg 1) ∧ (1 : RegIdx) = 1 := by decide

theorem witness_HaltEndsTheRunNormally :
    (stateAt 0 0 0 [25690112]).StepEnabled ∧ slice ((stateAt 0 0 0 [25690112]).memRead 0) 31 25 = 0 ∧
      slice ((stateAt 0 0 0 [25690112]).memRead 0) 24 22 = 6 ∧ slice ((stateAt 0 0 0 [25690112]).memRead 0) 21 0 ≠ 0 := by
  decide

theorem witness_NoopOnlyAdvances :
    (stateAt 0 0 0 [29360129]).StepEnabled ∧ slice ((stateAt 0 0 0 [29360129]).memRead 0) 31 25 = 0 ∧
      slice ((stateAt 0 0 0 [29360129]).memRead 0) 24 22 = 7 ∧ slice ((stateAt 0 0 0 [29360129]).memRead 0) 21 0 ≠ 0 := by
  decide

/-- A store to the top word, then a load from it in the state the store leaves. -/
theorem witness_LoadAfterStoreReturnsTheValue :
    Memory.wf (stateAt 0 65535 9 []).mem ∧ ((65535 : Nat) : Int) = s32 ((stateAt 0 65535 9 []).readReg 1) + 0 ∧
    65535 < (stateAt 0 65535 9 []).params.memSize ∧
    ∃ t, exec (.sw 1 2 0) (stateAt 0 65535 9 []) = .next t ∧ t.memRead 65535 = t.memRead 65535 ∧
      t.params = t.params ∧ ((65535 : Nat) : Int) = s32 (t.readReg 1) + 0 :=
  ⟨by decide, by decide, by decide, ((stateAt 0 65535 9 []).memWrite 65535 9).commit 1, eq_next (by decide), rfl, rfl,
    by decide⟩

/-- `sw 1 1 0` at address 0 with `x[1] = 65535`: memory, `loadedSize` and one word change. -/
theorem witness_OnlyStoresChangeMemory : ∃ s t x, Memory.wf s.mem ∧ step s = .next t ∧
    (t.mem ≠ s.mem ∨ t.loadedSize ≠ s.loadedSize) ∧ t.memRead x ≠ s.memRead x :=
  ⟨stateAt 0 65535 0 [13172736], ((stateAt 0 65535 0 [13172736]).memWrite 65535 65535).commit 1, 65535, by decide,
    eq_next (by decide), Or.inr (by decide), by decide⟩

/-- `add 1 2 1` changes `x[1]`. -/
theorem witness_OnlyTheDestinationRegisterChanges : ∃ s t r, step s = .next t ∧ t.readReg r ≠ s.readReg r :=
  ⟨stateAt 0 5 (-1) [655361], ((stateAt 0 5 (-1) [655361]).writeReg 1 4).commit 1, 1, eq_next (by decide), by decide⟩

/-- A register that is neither read nor written, and a destination that is not read; with a completing and with a
Fatal next state of each kind. -/
theorem witness_UnreadRegistersDoNotMatter :
    (3 : RegIdx) ∉ (Instr.lw 1 2 0).readsRegs ∧ (2 : RegIdx) ∉ (Instr.lw 1 2 0).readsRegs ∧
    (Instr.lw 1 2 0).writesReg = some 2 ∧ (stateAt 0 0 0 []).status = .run ∧
    (nextOf (exec (.lw 1 2 0) (stateAt 0 0 0 []))).map (·.status) = some .run ∧
    (nextOf (exec (.lw 1 2 0) (stateAt 0 (-1) 0 []))).map (·.status) = some (.fatal .negativeEffectiveAddress) := by decide

/-- `sw 0 1 1` at address 0 stores a halt word to the next address, and the next step is enabled. -/
theorem witness_StoredWordIsFetchedNext : ∃ s t u : State, Memory.wf s.mem ∧ s.StepEnabled ∧
    decode (s.memRead s.pc) = .ok (.sw 0 1 1) ∧ ((1 : Nat) : Int) = s32 (s.readReg 0) + 1 ∧
    1 < s.params.memSize ∧ step s = .next t ∧ u.mem = t.mem ∧ u.pc = 1 ∧ u.StepEnabled :=
  ⟨stateAt 0 25165824 0 [12648449], ((stateAt 0 25165824 0 [12648449]).memWrite 1 25165824).commit 1,
    ((stateAt 0 25165824 0 [12648449]).memWrite 1 25165824).commit 1, by decide, by decide, rfl, by decide, by decide,
    eq_next (by decide), rfl, rfl, by decide⟩

/-- Both ways: V-B11, `beq 0 0 32767` at address 0, and `jalr 1 2` (21626880) with `x[1] = 5`. -/
theorem witness_OnlyTransfersLeaveTheSequence :
    (∃ s t, step s = .next t ∧ t.NotFatal ∧ t.pc ≠ s.pc + 1 ∧ decode (s.memRead s.pc) = .ok (.beq 0 0 32767)) ∧
    (∃ s t, step s = .next t ∧ t.NotFatal ∧ t.pc ≠ s.pc + 1 ∧ decode (s.memRead s.pc) = .ok (.jalr 1 2)) :=
  ⟨⟨stateAt 0 0 0 [16809983], (stateAt 0 0 0 [16809983]).commit 32768, eq_next (by decide),
      (fun _ h => by cases h), by decide, rfl⟩,
    ⟨stateAt 0 5 0 [21626880], ((stateAt 0 5 0 [21626880]).writeReg 2 1).commit 5, eq_next (by decide),
      (fun _ h => by cases h), by decide, rfl⟩⟩

/-- A branch to exactly `loadedSize`; a jump to 2^31 - 1 (V-B10); pc + 1 at exactly `loadedSize`. -/
theorem witness_TransfersPastTheImageEndTheRun :
    ((stateAt 0 0 0 [0]).readReg 0 = (stateAt 0 0 0 [0]).readReg 0 ∧
      ((stateAt 0 0 0 [0]).loadedSize : Int) ≤ ((stateAt 0 0 0 [0]).pc : Int) + 1 + 0) ∧
    ((1 : RegIdx) ≠ 2 ∧
      ((stateAt 0 2147483647 0 [0]).loadedSize : Int) ≤ s32 ((stateAt 0 2147483647 0 [0]).readReg 1)) ∧
    (stateAt 0 0 0 [0]).loadedSize ≤ (stateAt 0 0 0 [0]).pc + 1 := by decide

theorem witness_WrappedAddressFaultsAlike : Params.default.Valid ∧ Params.Valid ⟨2 ^ 31 - 32768, 0⟩ ∧
    offsetInRange 32767 = true ∧ offsetInRange (-32768) = true := by decide

theorem witness_CanonicalMemoryIsDeterminedByItsReads : ∃ m m' : Memory, m ≠ [] ∧ Memory.wf m ∧ Memory.wf m' ∧
    ∀ a, Memory.read m a = Memory.read m' a :=
  ⟨[(3, 1)], [(3, 1)], by decide, by decide, by decide, fun _ => rfl⟩

/-- The reset state meets the invariant (ResetMeetsTheInvariant's witness too); a state with a step that does. -/
theorem witness_StepKeepsTheInvariant : ∃ s t, s.Inv ∧ step s = .next t :=
  ⟨State.boot Params.default [29360128], (State.boot Params.default [29360128]).commit 1,
    ⟨by decide, by decide, by decide, by decide, by decide, by decide, (fun h => by cases h), (fun _ h => by cases h)⟩,
    eq_next (by decide)⟩

/-- An image that fills the memory exactly, and the empty one. -/
theorem witness_BootHoldsTheImage : ImageFits ⟨1, 0⟩ [5] ∧ ImageFits Params.default [] := by decide

theorem witness_FirstStepRunsWordZero : ImageFits ⟨1, 1⟩ (29360128 :: []) ∧ 0 < (Params.mk 1 1).ceiling := by decide

theorem witness_ReachableStatesMeetTheInvariant : ImageFits Params.default [25165824] := by decide

theorem witness_EveryRunEndsWithinTheCeiling : Params.default.ceiling ≤ 1000 ∧ (Params.mk 1 0).ceiling ≤ 0 := by
  decide

theorem witness_RunEndsForOneOfTheFourCauses : ∃ p image f, ImageFits p image ∧ f = runToEnd (State.boot p image) :=
  ⟨⟨1, 0⟩, [16842751], _, by decide, rfl⟩

end Sys2Proof.Tests
end

