-- ==== Sys2Proof/Proofs/RunParameters.lean ====
section
/-! PROOFS. The parameters of a run are fixed (00_scope.md R4): no instruction and no Fatal entry writes them. -/

namespace Sys2Proof.Machine

/-- Frame of every meaning: an answer is built from the state by register and memory writes, commits, Fatal entries
and the status of halt, and none of these updates touches the parameters. -/
theorem exec_params {i : Instr} {s t : State} (h : exec i s = .next t) : t.params = s.params := by
  cases i with
  | add a b d => cases h; simp
  | nand a b d => cases h; simp
  | lw a b o =>
    rcases exec_lw_cases s a b o with ⟨_, e⟩ | ⟨_, _, e⟩ | ⟨_, _, _, e⟩ <;>
      rw [e] at h <;> cases h <;> simp
  | sw a b o =>
    rcases exec_sw_cases s a b o with ⟨_, e⟩ | ⟨_, _, e⟩ | ⟨_, _, _, e⟩ <;>
      rw [e] at h <;> cases h <;> simp
  | beq a b o =>
    rcases exec_beq_cases s a b o with ⟨_, _, e⟩ | ⟨_, _, _, e⟩ | ⟨_, e⟩ <;>
      rw [e] at h <;> cases h <;> simp
  | jalr a b =>
    rcases exec_jalr_cases s a b with ⟨_, _, e⟩ | ⟨_, _, _, e⟩ | ⟨_, e⟩ <;>
      rw [e] at h <;> cases h <;> simp
  | halt => cases h; simp
  | noop => cases h; simp

/-- Settles O36: a step is the Fatal entry of a word that is no instruction, or the meaning of one. -/
theorem stepKeepsTheRunParameters : Obligations.StepKeepsTheRunParameters := by
  intro s t h
  obtain ⟨-, ⟨e, -, rfl⟩ | ⟨i, -, hexec⟩⟩ := step_next_cases h
  · exact State.fatalEntry_params s (rejectReason e)
  · exact exec_params hexec

end Sys2Proof.Machine
end

