-- ==== Sys2Proof/Proofs/Completion.lean ====
section
/-! PROOFS. What a completed instruction changes, said once (10_state.md R13 to R15, R24), and the two statements that
read it off: which register a step can change (R13), and where it can leave the sequence (R15, R112). -/

namespace Sys2Proof.Machine

/-- The ways a completed instruction sets the new pc (R112): the next address, a taken beq, a jalr of different
registers. -/
def NewPc (i : Instr) (s t : State) : Prop :=
  t.pc = s.pc + 1 ∨
  (∃ a b offset, i = .beq a b offset ∧ s.readReg a = s.readReg b ∧ (t.pc : Int) = (s.pc : Int) + 1 + offset) ∨
  (∃ a b, i = .jalr a b ∧ a ≠ b ∧ (t.pc : Int) = s32 (s.readReg a))

/-- What a completed instruction does to memory and its high-water mark (R17, R18): nothing, or the store of a sw at
an address inside memory. -/
def NewMemory (i : Instr) (s t : State) : Prop :=
  (t.mem = s.mem ∧ t.loadedSize = s.loadedSize) ∨
  (∃ a b offset, ∃ ea : Nat, i = .sw a b offset ∧ (ea : Int) = s32 (s.readReg a) + offset ∧
    ea < s.params.memSize ∧ t.mem = Memory.write s.mem ea (s.readReg b) ∧
    t.loadedSize = max s.loadedSize (ea + 1))

/-- `t` is the state in which instruction `i`, started in `s`, has completed: no Fatal was raised. -/
structure Completes (i : Instr) (s t : State) : Prop where
  regs : ∀ r, i.writesReg ≠ some r → t.readReg r = s.readReg r
  memory : NewMemory i s t
  pc : NewPc i s t
  count : t.instructionsExecuted = s.instructionsExecuted + 1
  status : t.status = if i = .halt then .halted else s.status
  params : t.params = s.params

section
variable {i : Instr} {s : State} {p : Nat}

/-- A completion that writes register `d` and leaves memory alone: add, nand, lw, jalr. -/
theorem completes_writeReg {d : RegIdx} (v : Word) (hd : i.writesReg = some d) (hi : i ≠ .halt)
    (hp : NewPc i s ((s.writeReg d v).commit p)) : Completes i s ((s.writeReg d v).commit p) where
  regs _ hr := State.readReg_writeReg_of_ne s d v fun h => hr (h ▸ hd)
  memory := .inl ⟨rfl, rfl⟩
  pc := hp
  count := rfl
  status := (if_neg hi).symm
  params := rfl

/-- A completion that changes pc and count alone: beq, noop. -/
theorem completes_commit (hi : i ≠ .halt) (hp : NewPc i s (s.commit p)) : Completes i s (s.commit p) where
  regs _ _ := rfl
  memory := .inl ⟨rfl, rfl⟩
  pc := hp
  count := rfl
  status := (if_neg hi).symm
  params := rfl

end

/-- The two ways an instruction ends (R74): the entry of a Fatal on the state as it was, or completion. -/
theorem exec_next_cases {i : Instr} {s t : State} (h : exec i s = .next t) :
    (∃ r, t = s.fatalEntry r) ∨ Completes i s t := by
  cases i with
  | add a b d => cases h; exact .inr (completes_writeReg _ rfl nofun (.inl rfl))
  | nand a b d => cases h; exact .inr (completes_writeReg _ rfl nofun (.inl rfl))
  | lw a b o =>
    rcases exec_lw_cases s a b o with ⟨_, e⟩ | ⟨_, _, e⟩ | ⟨_, _, _, e⟩ <;> rw [e] at h <;> cases h
    · exact .inl ⟨_, rfl⟩
    · exact .inl ⟨_, rfl⟩
    · exact .inr (completes_writeReg _ rfl nofun (.inl rfl))
  | sw a b o =>
    rcases exec_sw_cases s a b o with ⟨_, e⟩ | ⟨_, _, e⟩ | ⟨ea, hea, hlt, e⟩ <;> rw [e] at h <;> cases h
    · exact .inl ⟨_, rfl⟩
    · exact .inl ⟨_, rfl⟩
    · exact .inr ⟨fun _ _ => rfl, .inr ⟨a, b, o, ea, rfl, hea, hlt, rfl, rfl⟩, .inl rfl, rfl, rfl, rfl⟩
  | beq a b o =>
    rcases exec_beq_cases s a b o with ⟨_, _, e⟩ | ⟨_, hab, hp, e⟩ | ⟨_, e⟩ <;> rw [e] at h <;> cases h
    · exact .inl ⟨_, rfl⟩
    · exact .inr (completes_commit nofun (.inr (.inl ⟨a, b, o, rfl, hab, hp⟩)))
    · exact .inr (completes_commit nofun (.inl rfl))
  | jalr a b =>
    rcases exec_jalr_cases s a b with ⟨_, _, e⟩ | ⟨_, hab, hp, e⟩ | ⟨_, e⟩ <;> rw [e] at h <;> cases h
    · exact .inl ⟨_, rfl⟩
    · exact .inr (completes_writeReg _ rfl nofun (.inr (.inr ⟨a, b, rfl, hab, hp⟩)))
    · exact .inr (completes_writeReg _ rfl nofun (.inl rfl))
  | halt => cases h; exact .inr ⟨fun _ _ => rfl, .inl ⟨rfl, rfl⟩, .inl rfl, rfl, rfl, rfl⟩
  | noop => cases h; exact .inr (completes_commit nofun (.inl rfl))

/-- The two ways a step ends, whether its word is an instruction or not (R62, R74). -/
theorem step_ends {s t : State} (h : step s = .next t) :
    s.StepEnabled ∧ ((∃ r, t = s.fatalEntry r) ∨ ∃ i, decode (s.memRead s.pc) = .ok i ∧ Completes i s t) := by
  obtain ⟨hg, ⟨e, -, rfl⟩ | ⟨i, hd, hexec⟩⟩ := step_next_cases h
  · exact ⟨hg, .inl ⟨_, rfl⟩⟩
  · exact ⟨hg, (exec_next_cases hexec).imp id fun hc => ⟨i, hd, hc⟩⟩

/-- A Fatal entry is no safe state (R150). -/
theorem not_notFatal_fatalEntry (s : State) (r : FatalReason) : ¬ (s.fatalEntry r).NotFatal :=
  fun h => h r rfl

/-- The instructions that write a register, by the register (R13). -/
theorem writesReg_eq_some {i : Instr} {r : RegIdx} (h : i.writesReg = some r) :
    (∃ a b, i = .add a b r) ∨ (∃ a b, i = .nand a b r) ∨ (∃ a offset, i = .lw a r offset) ∨
      ∃ a, i = .jalr a r := by
  cases i with
  | add a b _ => cases h; exact .inl ⟨a, b, rfl⟩
  | nand a b _ => cases h; exact .inr (.inl ⟨a, b, rfl⟩)
  | lw a _ o => cases h; exact .inr (.inr (.inl ⟨a, o, rfl⟩))
  | jalr a _ => cases h; exact .inr (.inr (.inr ⟨a, rfl⟩))
  | sw | beq | halt | noop => cases h

/-- Settles O28: a Fatal entry changes no register, and a completed instruction none but its `writesReg`. -/
theorem onlyTheDestinationRegisterChanges : Obligations.OnlyTheDestinationRegisterChanges := by
  intro s t r h hne
  obtain ⟨-, ⟨e, rfl⟩ | ⟨i, hd, hc⟩⟩ := step_ends h
  · exact absurd (s.fatalEntry_readReg r e) hne
  · have hw : i.writesReg = some r := by
      by_contra hw
      exact hne (hc.regs r hw)
    rw [hd]
    rcases writesReg_eq_some hw with ⟨a, b, rfl⟩ | ⟨a, b, rfl⟩ | ⟨a, o, rfl⟩ | ⟨a, rfl⟩ <;> simp

/-- Settles O32: of the three ways a completed instruction sets the pc, two are not the next address. -/
theorem onlyTransfersLeaveTheSequence : Obligations.OnlyTransfersLeaveTheSequence := by
  intro s t h hsafe hne
  obtain ⟨-, ⟨r, rfl⟩ | ⟨i, hd, hc⟩⟩ := step_ends h
  · exact absurd hsafe (not_notFatal_fatalEntry s r)
  · rcases hc.pc with hp | ⟨a, b, o, rfl, hab, hp⟩ | ⟨a, b, rfl, hab, hp⟩
    · exact absurd hp hne
    · exact .inl ⟨a, b, o, hd, hab, hp⟩
    · exact .inr ⟨a, b, hd, hab, hp⟩

end Sys2Proof.Machine
end

