-- ==== Sys2Proof/Proofs/Invariant.lean ====
section
/-! PROOFS. The invariant of R24: the boot of every image that fits meets it (R26, R181), every step keeps it, and so
every state of every run meets it. -/

namespace Sys2Proof

/-- The offset the decoder delivers is a 16-bit signed number (R56, R71). -/
theorem decodeFields_offsetInRange (w : Word) : offsetInRange (decodeFields w).offset = true := by
  obtain ⟨hlo, hhi⟩ := sext16_range (slice_lt w 15 0)
  simp [offsetInRange, decodeFields, hlo, hhi]

/-- A word that decodes gives a well-formed instruction (R64). -/
theorem wellFormed_of_decode {w : Word} {i : Instr} (h : decode w = .ok i) : i.wellFormed = true := by
  obtain ⟨-, -, rfl⟩ := decode_eq_ok.mp h
  unfold Instr.ofFields
  split
  case h_3 | h_4 | h_5 => exact decodeFields_offsetInRange w
  all_goals rfl

end Sys2Proof

namespace Sys2Proof.Machine

/-! ## Every step keeps the invariant -/

/-- The memory clauses of the invariant survive a completed instruction: the only change is a store inside memory,
which the high-water mark then covers. -/
theorem Completes.memory_inv {i : Instr} {s t : State} (hc : Completes i s t) (hs : s.Inv) :
    Memory.wf t.mem ∧ (∀ e ∈ t.mem, e.1 < t.loadedSize) ∧ t.loadedSize ≤ t.params.memSize ∧
      s.loadedSize ≤ t.loadedSize := by
  have hfit := hs.loadedFits
  rw [hc.params]
  rcases hc.memory with ⟨hm, hl⟩ | ⟨a, b, o, ea, -, -, hea, hm, hl⟩ <;> rw [hm, hl]
  · exact ⟨hs.memCanonical, hs.memBelowLoaded, hfit, le_rfl⟩
  · refine ⟨Memory.write_wf ea _ hs.memCanonical, fun e he => ?_, by omega, by omega⟩
    rcases Memory.mem_write he with rfl | he
    · show ea < _
      omega
    · have := hs.memBelowLoaded e he
      omega

/-- The pc stays in its range (R14): below `loadedSize` a step adds at most `1 + 32767` to it, and the target of a
jalr is a 32-bit signed value. -/
theorem Completes.pc_range {i : Instr} {s t : State} (hc : Completes i s t) (hs : s.Inv)
    (hpc : s.pc < s.loadedSize) (hi : i.wellFormed = true) : t.pc ≤ 2 ^ 31 - 1 := by
  have hfit := hs.loadedFits
  have hmax := hs.paramsValid.2
  rcases hc.pc with hp | ⟨a, b, o, rfl, -, hp⟩ | ⟨a, b, rfl, -, hp⟩
  · omega
  · have ho : o ≤ 32767 := by
      simp only [Instr.wellFormed, offsetInRange, Bool.and_eq_true, decide_eq_true_eq] at hi
      exact hi.2
    omega
  · have htarget : s32 (s.readReg a) < 2 ^ 31 := BitVec.toInt_lt
    omega

/-- A completed step ends in RUN or HALTED, never in a Fatal (R74). -/
theorem Completes.notFatal {i : Instr} {s t : State} (hc : Completes i s t) (hrun : s.status = .run) :
    t.NotFatal := by
  intro r hr
  have hst := hc.status
  rw [hr, hrun] at hst
  split at hst <;> cases hst

/-- A completed step keeps the invariant. -/
theorem Completes.inv {i : Instr} {s t : State} (hc : Completes i s t) (hs : s.Inv) (hg : s.StepEnabled)
    (hi : i.wellFormed = true) : t.Inv := by
  obtain ⟨hrun, hpc, hcount⟩ := hg
  obtain ⟨hwf, hbelow, hfit, -⟩ := hc.memory_inv hs
  exact {
    paramsValid := hc.params ▸ hs.paramsValid
    memCanonical := hwf
    memBelowLoaded := hbelow
    loadedFits := hfit
    pcRange := hc.pc_range hs hpc hi
    countBounded := by rw [hc.count, hc.params]; omega
    haltedCounted := fun _ => by rw [hc.count]; omega
    fatalAtPc := fun r hr => absurd hr (hc.notFatal hrun r) }

/-- A step that ends in a Fatal keeps the invariant: all but the status is as it was, so taken up again from RUN the
same word raises the same Fatal. -/
theorem fatalEntry_inv {s : State} {r : FatalReason} (hs : s.Inv) (h : step s = .next (s.fatalEntry r)) :
    (s.fatalEntry r).Inv := by
  obtain ⟨hg, -⟩ := step_next_cases h
  have hback : { s.fatalEntry r with status := .run } = s := by
    show { s with status := .run } = s
    rw [← hg.1]
  exact { hs with
    haltedCounted := nofun
    fatalAtPc := fun q _ => ⟨hg.2.1, by
      rw [hback, ← h, step, if_pos hg]
      rfl⟩ }

/-- Settles O37: both ends of a step keep the invariant, and only a completed one moves the pc, the count or the
high-water mark. -/
theorem stepKeepsTheInvariant : Obligations.StepKeepsTheInvariant := by
  intro s t hs h
  obtain ⟨hg, ⟨r, rfl⟩ | ⟨i, hd, hc⟩⟩ := step_ends h
  · exact ⟨fatalEntry_inv hs h, le_rfl, le_rfl, fun _ => rfl⟩
  · obtain ⟨-, -, -, hgrow⟩ := hc.memory_inv hs
    exact ⟨hc.inv hs hg (wellFormed_of_decode hd), hgrow, by rw [hc.count]; omega,
      fun hfatal => absurd (hc.notFatal hg.1) hfatal⟩

/-! ## Reset and boot -/

@[simp] theorem State.boot_memRead (p : Params) (image : List Word) (a : Nat) :
    (State.boot p image).memRead a = image.getD a 0 := by
  show Memory.read (Memory.loadFrom State.reset.mem 0 image) a = _
  rw [Memory.read_loadFrom 0 a image Memory.reset_wf, List.getD_eq_getElem?_getD]
  rfl

@[simp] theorem State.boot_readReg (p : Params) (image : List Word) (r : RegIdx) :
    (State.boot p image).readReg r = 0 := by
  show (Vector.replicate 8 Config.resetReg)[r.val] = 0
  rw [Vector.getElem_replicate, Config.resetReg]

/-- The boot of an image that fits meets the invariant (R24, R181). -/
theorem State.boot_inv {p : Params} {image : List Word} (hfit : ImageFits p image) : (State.boot p image).Inv where
  paramsValid := hfit.1
  memCanonical := Memory.loadFrom_wf 0 image Memory.reset_wf
  memBelowLoaded e he := by
    rcases Memory.mem_loadFrom he with hnone | hlt
    · cases hnone
    · simpa [State.boot] using hlt
  loadedFits := hfit.2
  pcRange := Nat.zero_le _
  countBounded := Nat.zero_le _
  haltedCounted := nofun
  fatalAtPc := nofun

/-- The reset state is the boot of the empty image, with the default parameters (R26; log 6). -/
theorem State.reset_eq_boot : State.reset = State.boot Params.default [] := rfl

/-- Settles O40: the memory is what the image load leaves, every other field its reset value. -/
theorem bootHoldsTheImage : Obligations.BootHoldsTheImage := by
  intro p image hfit
  exact ⟨State.boot_memRead p image, State.boot_readReg p image, rfl, rfl, rfl, rfl, rfl, State.boot_inv hfit⟩

/-- Settles O38, from the boot of the empty image. -/
theorem resetStateIsAsListed : Obligations.ResetStateIsAsListed :=
  ⟨State.boot_readReg Params.default [], State.boot_memRead Params.default [],
    rfl, rfl, rfl, rfl, rfl, rfl, State.reset_eq_boot⟩

/-- Settles O39, from the boot of the empty image, which fits the default memory. -/
theorem resetMeetsTheInvariant : Obligations.ResetMeetsTheInvariant :=
  State.boot_inv (p := Params.default) (image := []) (by decide)

/-! ## Runs -/

/-- Settles O42: the boot meets the invariant and every step keeps it. -/
theorem reachableStatesMeetTheInvariant : Obligations.ReachableStatesMeetTheInvariant := by
  intro p image n hfit
  exact runFor_keeps (fun s t hs h => (stepKeepsTheInvariant s t hs h).1) n (State.boot_inv hfit)

end Sys2Proof.Machine
end

