-- ==== Sys2Proof/Proofs/RegisterUse.lean ====
section
/-! PROOFS. Two statements that compare an instruction run on two states: another value in a register it does not read
(R13), and the registers renamed (R11, R12). Both go instruction by instruction through one rule for `whenOk`. -/

namespace Sys2Proof.Machine

/-- The comparison rule of a tested effect (R80): two tests with one answer either both enter its Fatal or both make
their effects. -/
theorem whenOk_related {α : Type} {R : State → State → Prop} {test test' : Except FatalReason α} {s s' : State}
    {effect effect' : α → State} (htest : test' = test) (hfatal : ∀ r, R (s.fatalEntry r) (s'.fatalEntry r))
    (heffect : ∀ x, R (effect x) (effect' x)) :
    ∃ t t', whenOk test s effect = .next t ∧ whenOk test' s' effect' = .next t' ∧ R t t' := by
  subst htest
  cases test' with
  | error r => exact ⟨_, _, rfl, rfl, hfatal r⟩
  | ok x => exact ⟨_, _, rfl, rfl, heffect x⟩

/-- beq as one tested effect: the next address passes where the branch is not taken (R110). -/
theorem exec_beq (a b : RegIdx) (offset : Int) (s : State) : exec (.beq a b offset) s =
    whenOk (if s.readReg a = s.readReg b then checkTarget (branchTarget s offset) else .ok (s.pc + 1)) s s.commit := by
  show execBeq a b offset s = _
  by_cases h : s.readReg a = s.readReg b <;> simp [execBeq, regsEqual, h, whenOk]

/-! ## Another value in a register that is not read -/

/-- The later of two writes to one register stands. -/
theorem State.writeReg_writeReg_self (s : State) (q : RegIdx) (v w : Word) :
    (s.writeReg q v).writeReg q w = s.writeReg q w := by
  simp [State.writeReg]

/-- Writes to different registers commute. -/
theorem State.writeReg_comm (s : State) {q d : RegIdx} (v w : Word) (h : q ≠ d) :
    (s.writeReg q v).writeReg d w = (s.writeReg d w).writeReg q v := by
  have : q.val ≠ d.val := fun e => h (Fin.ext e)
  simp [State.writeReg, Vector.set_comm _ _ this]

/-- How the results compare when register `q` held another value `v`: that value is gone if the instruction completed
and wrote `q`, and stands otherwise. -/
def ReplacedUnlessWritten (i : Instr) (q : RegIdx) (v : Word) (t t' : State) : Prop :=
  (i.writesReg = some q ∧ t.NotFatal ∧ t' = t) ∨
    (¬ (i.writesReg = some q ∧ t.NotFatal) ∧ t' = t.writeReg q v)

section
variable {i : Instr} {q : RegIdx} {v : Word}

theorem replaced_fatalEntry (s : State) (r : FatalReason) :
    ReplacedUnlessWritten i q v (s.fatalEntry r) ((s.writeReg q v).fatalEntry r) :=
  .inr ⟨fun h => not_notFatal_fatalEntry s r h.2, rfl⟩

theorem replaced_of_no_write (t : State) (h : i.writesReg = none) :
    ReplacedUnlessWritten i q v t (t.writeReg q v) :=
  .inr ⟨by simp [h], rfl⟩

theorem replaced_of_write {s : State} (hrun : s.status = .run) {d : RegIdx} (h : i.writesReg = some d)
    (w : Word) (p : Nat) :
    ReplacedUnlessWritten i q v ((s.writeReg d w).commit p) (((s.writeReg q v).writeReg d w).commit p) := by
  by_cases hq : q = d
  · subst hq
    refine .inl ⟨h, fun r hr => ?_, by rw [State.writeReg_writeReg_self]⟩
    have hstatus : s.status = .fatal r := hr
    rw [hrun] at hstatus
    cases hstatus
  · refine .inr ⟨fun hw => hq ?_, by rw [State.writeReg_comm s v w hq]; rfl⟩
    rw [h] at hw
    exact (Option.some.inj hw.1).symm

/-- An instruction run with another value in a register it does not read. -/
theorem exec_replaced (i : Instr) {s : State} {q : RegIdx} (v : Word) (hq : q ∉ i.readsRegs)
    (hrun : s.status = .run) :
    ∃ t t', exec i s = .next t ∧ exec i (s.writeReg q v) = .next t' ∧ ReplacedUnlessWritten i q v t t' := by
  have hread : ∀ a ∈ i.readsRegs, (s.writeReg q v).readReg a = s.readReg a := fun a ha =>
    State.readReg_writeReg_of_ne s q v fun e => hq (e ▸ ha)
  cases i with
  | add a b d =>
    refine ⟨_, _, exec_add s a b d, exec_add _ a b d, ?_⟩
    rw [hread a (by simp [Instr.readsRegs]), hread b (by simp [Instr.readsRegs])]
    exact replaced_of_write hrun rfl _ _
  | nand a b d =>
    refine ⟨_, _, exec_nand s a b d, exec_nand _ a b d, ?_⟩
    rw [hread a (by simp [Instr.readsRegs]), hread b (by simp [Instr.readsRegs])]
    exact replaced_of_write hrun rfl _ _
  | lw a b o =>
    refine whenOk_related ?_ (replaced_fatalEntry s) fun ea => replaced_of_write hrun rfl (s.memRead ea) _
    simp [dataAddress, effectiveAddress, hread a (by simp [Instr.readsRegs])]
  | sw a b o =>
    refine whenOk_related ?_ (replaced_fatalEntry s) fun ea => ?_
    · simp [dataAddress, effectiveAddress, hread a (by simp [Instr.readsRegs])]
    · rw [hread b (by simp [Instr.readsRegs])]
      exact replaced_of_no_write _ rfl
  | beq a b o =>
    rw [exec_beq, exec_beq]
    refine whenOk_related ?_ (replaced_fatalEntry s) fun p => replaced_of_no_write (s.commit p) rfl
    rw [hread a (by simp [Instr.readsRegs]), hread b (by simp [Instr.readsRegs])]
    rfl
  | jalr a b =>
    refine whenOk_related ?_ (replaced_fatalEntry s) fun p => replaced_of_write hrun rfl (linkValue s) p
    simp [jumpTarget, hread a (by simp [Instr.readsRegs])]
  | halt => exact ⟨_, _, rfl, rfl, replaced_of_no_write _ rfl⟩
  | noop => exact ⟨_, _, rfl, rfl, replaced_of_no_write _ rfl⟩

end

/-- Settles O29: where the other value is gone the results are equal; where it stands they differ in it alone. -/
theorem unreadRegistersDoNotMatter : Obligations.UnreadRegistersDoNotMatter := by
  intro i s q v hq hrun
  obtain ⟨t, t', h, h', ⟨hw, hsafe, rfl⟩ | ⟨hnot, rfl⟩⟩ := exec_replaced i v hq hrun
  · exact ⟨_, _, h, h', rfl, rfl, rfl, rfl, rfl, rfl, fun _ _ => rfl, fun _ => rfl,
      fun hnot => absurd ⟨hw, hsafe⟩ hnot⟩
  · exact ⟨_, _, h, h', rfl, rfl, rfl, rfl, rfl, rfl, fun _ hr => State.readReg_writeReg_of_ne t q v hr,
      fun hyes => absurd hyes hnot, fun _ => State.readReg_writeReg_self t q v⟩

/-! ## Registers renamed -/

section
variable (σ : Equiv.Perm RegIdx) (s : State)

/-- The renamed state holds in register `r` what register `σ⁻¹ r` held. -/
theorem State.readReg_renameRegs (r : RegIdx) : (s.renameRegs σ).readReg r = s.readReg (σ.symm r) := by
  simp [State.readReg, State.renameRegs]

@[simp] theorem State.readReg_renameRegs_apply (r : RegIdx) : (s.renameRegs σ).readReg (σ r) = s.readReg r := by
  rw [State.readReg_renameRegs, Equiv.symm_apply_apply]

@[simp] theorem State.renameRegs_pc : (s.renameRegs σ).pc = s.pc := rfl
@[simp] theorem State.renameRegs_params : (s.renameRegs σ).params = s.params := rfl

/-- Renaming takes a register write to the write of the renamed register. -/
theorem State.writeReg_renameRegs (d : RegIdx) (v : Word) :
    (s.renameRegs σ).writeReg (σ d) v = (s.writeReg d v).renameRegs σ := by
  refine State.eq_of_fields (fun r => ?_) rfl rfl rfl rfl rfl rfl
  rw [State.readReg_writeReg, State.readReg_renameRegs, State.readReg_renameRegs, State.readReg_writeReg]
  simp only [Equiv.symm_apply_eq]

/-- An instruction that ends in a register write, renamed. -/
theorem commit_writeReg_renameRegs (d : RegIdx) (v : Word) (p : Nat) :
    ((s.renameRegs σ).writeReg (σ d) v).commit p = ((s.writeReg d v).commit p).renameRegs σ := by
  rw [State.writeReg_renameRegs]
  rfl

/-- The renamed instruction on the renamed state gives the renamed result. -/
theorem exec_renameRegs (i : Instr) :
    ∃ t t', exec i s = .next t ∧ exec (i.renameRegs σ) (s.renameRegs σ) = .next t' ∧ t' = t.renameRegs σ := by
  have hfatal : ∀ r, (s.renameRegs σ).fatalEntry r = (s.fatalEntry r).renameRegs σ := fun _ => rfl
  cases i with
  | add a b d =>
    refine ⟨_, _, exec_add s a b d, exec_add _ _ _ _, ?_⟩
    rw [State.readReg_renameRegs_apply, State.readReg_renameRegs_apply]
    exact commit_writeReg_renameRegs σ s d _ _
  | nand a b d =>
    refine ⟨_, _, exec_nand s a b d, exec_nand _ _ _ _, ?_⟩
    rw [State.readReg_renameRegs_apply, State.readReg_renameRegs_apply]
    exact commit_writeReg_renameRegs σ s d _ _
  | lw a b o =>
    refine whenOk_related ?_ hfatal fun ea => commit_writeReg_renameRegs σ s b (s.memRead ea) _
    simp [dataAddress, effectiveAddress]
  | sw a b o =>
    refine whenOk_related ?_ hfatal fun ea => ?_
    · simp [dataAddress, effectiveAddress]
    · rw [State.readReg_renameRegs_apply]
      rfl
  | beq a b o =>
    rw [Instr.renameRegs, exec_beq, exec_beq]
    refine whenOk_related ?_ hfatal fun _ => rfl
    rw [State.readReg_renameRegs_apply, State.readReg_renameRegs_apply]
    rfl
  | jalr a b =>
    refine whenOk_related ?_ hfatal fun p => commit_writeReg_renameRegs σ s b (linkValue s) p
    simp [jumpTarget]
  | halt => exact ⟨_, _, rfl, rfl, rfl⟩
  | noop => exact ⟨_, _, rfl, rfl, rfl⟩

end

/-- Settles O30: no meaning looks at a register's index but to compare two of them, which a permutation keeps. -/
theorem noRegisterIsSpecial : Obligations.NoRegisterIsSpecial := by
  intro σ i s
  obtain ⟨t, _, h, h', rfl⟩ := exec_renameRegs σ s i
  exact ⟨t, h, h'⟩

end Sys2Proof.Machine
end

