-- ==== Sys2Proof/Proofs/Memory.lean ====
section
/-! PROOFS. The memory statements (20_memory.md): its list is determined by what its addresses read (R31), only sw
changes it (R44), and a fetch sees the latest store (R42). -/

namespace Sys2Proof.Machine

/-! ## The memory list and its reads -/

/-- An address that does not read as the reset value is listed, with the word it reads as. -/
theorem Memory.mem_of_read_ne {m : Memory} {a : Nat} (h : Memory.read m a ≠ Config.resetMem) :
    (a, Memory.read m a) ∈ m := by
  induction m with
  | nil => exact absurd rfl h
  | cons e m ih =>
    obtain ⟨b, u⟩ := e
    by_cases hab : a = b
    · simp [Memory.read, hab]
    · rw [Memory.read, if_neg hab] at h ⊢
      exact List.mem_cons_of_mem _ (ih h)

/-- The entries of a canonical memory are its addresses that do not read as the reset value, each with its word. -/
theorem Memory.mem_iff_read {m : Memory} (h : Memory.wf m) (e : Nat × Word) :
    e ∈ m ↔ Memory.read m e.1 = e.2 ∧ e.2 ≠ Config.resetMem := by
  constructor
  · exact fun he => ⟨Memory.read_of_mem h he, h.2 e he⟩
  · rintro ⟨hread, hne⟩
    rw [← hread] at hne
    simpa [hread] using Memory.mem_of_read_ne hne

/-- Settles O35: memories that read alike have the same entries, and the rising addresses fix their order. -/
theorem canonicalMemoryIsDeterminedByItsReads : Obligations.CanonicalMemoryIsDeterminedByItsReads := by
  intro m m' hm hm' hreads
  have hmem : ∀ e, e ∈ m ↔ e ∈ m' := by
    intro e
    rw [Memory.mem_iff_read hm, Memory.mem_iff_read hm', hreads]
  have : Std.Asymm fun p q : Nat × Word => p.1 < q.1 := ⟨fun _ _ => Nat.lt_asymm⟩
  exact hm.1.eq_of_mem_iff hm'.1 hmem

/-! ## Who changes memory -/

/-- Settles O27: a Fatal entry leaves memory as it is, and a completed instruction changes it by the store of a sw
alone. -/
theorem onlyStoresChangeMemory : Obligations.OnlyStoresChangeMemory := by
  intro s t _ h
  obtain ⟨-, ⟨r, rfl⟩ | ⟨i, hd, hc⟩⟩ := step_ends h
  · exact ⟨fun hne => absurd hne (by simp), fun x hne => absurd (s.fatalEntry_memRead x r) hne⟩
  · rcases hc.memory with ⟨hm, hl⟩ | ⟨a, b, o, ea, rfl, hea, -, hm, -⟩
    · exact ⟨fun hne => absurd hne (by simp [hm, hl]), fun x hne => absurd (by simp [State.memRead, hm]) hne⟩
    · refine ⟨fun _ => ⟨a, b, o, hd⟩, fun x hne => ⟨a, b, o, hd, ?_⟩⟩
      have hx : x = ea := by
        by_contra hx
        exact hne (by simp [State.memRead, hm, Memory.read_write_of_ne _ hx])
      rw [hx, hea]

/-! ## The fetch after a store -/

/-- A sw to an address inside memory stores the word there and goes to the next address (R102). -/
theorem exec_sw_of_inRange {s : State} {a b : RegIdx} {offset : Int} {ea : Nat}
    (hea : (ea : Int) = s32 (s.readReg a) + offset) (hlt : ea < s.params.memSize) :
    exec (.sw a b offset) s = .next ((s.memWrite ea (s.readReg b)).commit (s.pc + 1)) := by
  have hok : dataAddress s a offset = .ok ea := checkAddress_eq_ok.mpr ⟨hea, hlt⟩
  show whenOk (dataAddress s a offset) s _ = _
  rw [hok]
  rfl

/-- An enabled step runs the word its memory holds at pc (R75, R76). -/
theorem step_eq_execWord {s : State} (h : s.StepEnabled) : step s = execWord (s.memRead s.pc) s :=
  if_pos h

/-- Settles O31: the step makes the store, and the next fetch reads memory as the store left it. -/
theorem storedWordIsFetchedNext : Obligations.StoredWordIsFetchedNext := by
  intro s t a b offset ea hwf hg hd hea hlt h
  rw [step_of_decode hg hd, exec_sw_of_inRange hea hlt] at h
  cases h
  refine ⟨rfl, fun u hmem hpc hu => ?_⟩
  have hfetch : u.memRead u.pc = s.readReg b := by
    rw [State.memRead, hmem, hpc]
    exact Memory.read_write_self ea (s.readReg b) hwf
  rw [step_eq_execWord hu, hfetch]

end Sys2Proof.Machine
end

