-- ==== Sys2Proof/Proofs/Encoding.lean ====
section
/-! PROOFS. The encoding statements (30_encoding.md): the round trip between instructions and words (R65, R71), the
legality table (R61, R62), the sign of the offset (R56) and the unchecked bits of add and nand (R60). -/

namespace Sys2Proof

/-! ## Slices of a word -/

/-- A slice of the low 16 bits is that slice of the 16-bit field. -/
theorem slice_of_low {hi lo : Nat} (w : Word) (hlo : lo ≤ hi) (hhi : hi ≤ 15) :
    slice w hi lo = slice w 15 0 / 2 ^ lo % 2 ^ (hi - lo + 1) := by
  apply Nat.eq_of_testBit_eq
  intro i
  simp only [slice, Nat.testBit_mod_two_pow, Nat.testBit_div_two_pow]
  by_cases h : i < hi - lo + 1
  · simp [h, show i + lo < 16 by omega]
  · simp [h]

/-- A word is the sum of its reserved bits and its four fields at their places (R51, R58). -/
theorem toNat_eq_fields (w : Word) : w.toNat = slice w 31 25 * 2 ^ 25 + slice w 24 22 * 2 ^ 22 +
    slice w 21 19 * 2 ^ 19 + slice w 18 16 * 2 ^ 16 + slice w 15 0 := by
  have := w.isLt
  simp only [slice, u32]
  norm_num
  omega

/-- The low 16 bits of an R-type word are its unused bits, the unchecked bits and rd (R53, R60). -/
theorem low_eq_rtype (w : Word) : slice w 15 0 = slice w 15 5 * 32 + slice w 4 3 * 8 + slice w 2 0 := by
  simp only [slice]
  norm_num
  omega

/-! ## From an instruction to its word and back -/

/-- Every instruction's encoding has its fields in place and its unused bits zero (R51, R58, R59). -/
theorem encode_fields (i : Instr) : Laws.EncodedFields.Statement i := by
  cases i with
  | add a b d => exact Laws.EncodedFields.add a b d
  | nand a b d => exact Laws.EncodedFields.nand a b d
  | lw a b offset => exact Laws.EncodedFields.lw a b offset
  | sw a b offset => exact Laws.EncodedFields.sw a b offset
  | beq a b offset => exact Laws.EncodedFields.beq a b offset
  | jalr a b => exact Laws.EncodedFields.jalr a b
  | halt => exact Laws.EncodedFields.halt
  | noop => exact Laws.EncodedFields.noop

/-- What the decoder block delivers for an encoding: the instruction's own fields (R65, R71). -/
theorem decodeFields_encode (i : Instr) : decodeFields (encode i) =
    ⟨i.opcode, Fin.ofNat 8 i.fieldA, Fin.ofNat 8 i.fieldB, Fin.ofNat 8 (i.low16 % 8), sext16 i.low16⟩ := by
  obtain ⟨-, hop, hA, hB, hlow, -⟩ := encode_fields i
  have hrd : slice (encode i) 2 0 = i.low16 % 8 := by
    rw [slice_of_low _ (by decide) (by decide), hlow]
    simp
  rw [decodeFields, hop, hA, hB, hrd, hlow, Opcode.ofCode_code]

/-- Decoding undoes the encoding of a well-formed instruction (R65, R71). -/
theorem decode_encode {i : Instr} (hi : i.wellFormed = true) : decode (encode i) = .ok i := by
  obtain ⟨hres, -, -, -, -, hunused⟩ := encode_fields i
  rw [decode_eq_ok, decodeFields_encode]
  exact ⟨hres, hunused, Instr.ofFields_own i hi⟩

/-- A canonical encoding is non-negative as a signed word, since its sign bit is reserved (R58, R65). -/
theorem s32_encode_nonneg (i : Instr) : 0 ≤ s32 (encode i) := by
  have hlt := i.encodeNat_lt
  rw [← encode_toNat] at hlt
  rw [s32, BitVec.toInt_eq_toNat_of_lt (by omega)]
  exact Int.natCast_nonneg _

/-- Settles O1: the sum is the encoder's definition, its four fields stay apart, and the decoder finds them again. -/
theorem encodeIsCanonicalAndDecodesBack : Obligations.EncodeIsCanonicalAndDecodesBack := by
  intro i hi
  refine ⟨encode_toNat i, ?_, s32_encode_nonneg i, decode_encode hi⟩
  rw [u32, encode_toNat]
  exact i.encodeNat_lt

/-! ## From a word to its instruction and back -/

/-- The operand fields of an O-type word are unused bits (R55). -/
theorem operands_eq (w : Word) : slice w 21 0 = slice w 21 19 * 2 ^ 19 + slice w 18 16 * 2 ^ 16 + slice w 15 0 := by
  simp only [slice]
  norm_num
  omega

/-- What a canonical encoding leaves out of the low 16 bits of a legal word: the unchecked bits of add and nand, at
their place (R60). -/
def uncheckedPart (op : Opcode) (w : Word) : Nat :=
  if op = .add ∨ op = .nand then slice w 4 3 * 8 else 0

/-- The operand fields of an instruction are those of the word it was decoded from, the unchecked bits apart
(R60, R65). -/
theorem operands_of_decode {w : Word} {i : Instr} (h : decode w = .ok i) :
    i.fieldA = slice w 21 19 ∧ i.fieldB = slice w 18 16 ∧ i.low16 + uncheckedPart i.opcode w = slice w 15 0 := by
  obtain ⟨-, hunused, rfl⟩ := decode_eq_ok.mp h
  rw [unusedMask_test] at hunused
  have hA : (decodeFields w).regA.val = slice w 21 19 := Nat.mod_eq_of_lt (slice_lt w 21 19)
  have hB : (decodeFields w).regB.val = slice w 18 16 := Nat.mod_eq_of_lt (slice_lt w 18 16)
  have hD : (decodeFields w).rd.val = slice w 2 0 := Nat.mod_eq_of_lt (slice_lt w 2 0)
  have hlow : ((decodeFields w).offset % 0x10000).toNat = slice w 15 0 := emod_sext16 (slice_lt w 15 0)
  have hR := low_eq_rtype w
  have hO := operands_eq w
  rw [Instr.ofFields_opcode]
  unfold Instr.ofFields uncheckedPart
  cases hop : (decodeFields w).opcode <;> rw [hop] at hunused
  case add | nand =>
    have hunused : slice w 15 5 = 0 := hunused
    refine ⟨hA, hB, ?_⟩
    show (decodeFields w).rd.val + slice w 4 3 * 8 = slice w 15 0
    omega
  case lw | sw | beq => exact ⟨hA, hB, hlow⟩
  case jalr => exact ⟨hA, hB, hunused.symm⟩
  case halt | noop =>
    have hunused : slice w 21 0 = 0 := hunused
    obtain ⟨hA0, hB0, hlow0⟩ : 0 = slice w 21 19 ∧ 0 = slice w 18 16 ∧ 0 = slice w 15 0 := by omega
    exact ⟨hA0, hB0, hlow0⟩

/-- The word of an instruction is its encoding's number and the unchecked bits (R60, R65). -/
theorem encodeNat_of_decode {w : Word} {i : Instr} (h : decode w = .ok i) :
    i.encodeNat + uncheckedPart i.opcode w = w.toNat := by
  obtain ⟨hA, hB, hlow⟩ := operands_of_decode h
  rw [toNat_eq_fields, (decode_eq_ok.mp h).1, ← decodeFields_opcode_code, opcode_of_decode h, ← hA, ← hB, ← hlow,
    Instr.encodeNat]
  omega

/-- Settles O2: both sides are the same number, for add and nand after the unchecked bits are taken off. -/
theorem decodedWordIsItsCanonicalEncoding : Obligations.DecodedWordIsItsCanonicalEncoding := by
  intro w i h
  refine ⟨wellFormed_of_decode h, BitVec.eq_of_toNat_eq ?_⟩
  have hsum := encodeNat_of_decode h
  have hclear := toNat_clear_unchecked w
  rw [encode_toNat]
  unfold uncheckedPart at hsum
  by_cases hop : i.opcode = .add ∨ i.opcode = .nand
  · rw [if_pos hop] at hsum ⊢
    omega
  · rw [if_neg hop] at hsum ⊢
    omega

/-! ## The legality table -/

/-- The words of an opcode's row of the match table are those that decode to an instruction of the opcode (R61). -/
theorem legal_iff_decodes (w : Word) (op : Opcode) :
    w &&& op.legalMask = op.legalMatch ↔ ∃ i, decode w = .ok i ∧ i.opcode = op := by
  rw [legalMask_test, ← decodeFields_opcode_eq]
  constructor
  · rintro ⟨hres, rfl, hunused⟩
    exact ⟨_, decode_eq_ok.mpr ⟨hres, hunused, rfl⟩, Instr.ofFields_opcode _⟩
  · rintro ⟨i, h, rfl⟩
    have hop := opcode_of_decode h
    obtain ⟨hres, hunused, -⟩ := decode_eq_ok.mp h
    exact ⟨hres, hop, hop ▸ hunused⟩

/-- Settles O3: the match-and-mask test is the two encoding tests and the opcode. -/
theorem legalWordsAreTheMatchTable : Obligations.LegalWordsAreTheMatchTable :=
  fun w op => (legal_iff_decodes w op).symm

/-- A word is an instruction exactly when one row of the match table fits it, and then no other does (R61, R62). -/
theorem decodes_iff_unique_row (w : Word) :
    (∃ i, decode w = .ok i) ↔ ∃! op : Opcode, w &&& op.legalMask = op.legalMatch := by
  simp only [legal_iff_decodes]
  constructor
  · rintro ⟨i, h⟩
    refine ⟨i.opcode, ⟨i, h, rfl⟩, ?_⟩
    rintro _ ⟨j, hj, rfl⟩
    rw [Except.ok.inj (h.symm.trans hj)]
  · rintro ⟨_, ⟨i, h, -⟩, -⟩
    exact ⟨i, h⟩

/-- Settles O4: the two rejections are the two tests in their order, and the legal words are the table's. -/
theorem everyWordIsLegalOrFatal : Obligations.EveryWordIsLegalOrFatal :=
  fun w => ⟨decode_eq_malformed, decode_eq_unused, decodes_iff_unique_row w⟩

/-! ## The offset -/

/-- The sign extension of the low 16 bits is their two's-complement reading (R9, R56). -/
theorem sext16_low_eq_toInt (w : Word) : sext16 (slice w 15 0) = (w.extractLsb' 0 16).toInt := by
  have hval : (w.extractLsb' 0 16).toNat = slice w 15 0 := by simp [slice]
  have hlt := slice_lt w 15 0
  rw [BitVec.toInt_eq_toNat_cond, hval, sext16]
  split <;> split <;> omega

/-- Settles O5: the decoder's offset is the sign extension of the field, read off on the two halves of its range. -/
theorem offsetFieldIsSignExtended : Obligations.OffsetFieldIsSignExtended := by
  intro w
  obtain ⟨hlow, hhigh⟩ := sext16_range (slice_lt w 15 0)
  exact ⟨fun h => if_pos h, fun h => if_neg (by omega), hlow, hhigh, sext16_low_eq_toInt w⟩

/-! ## The unchecked bits of add and nand -/

/-- add and nand do not use the offset output of the decoder (R53, R79). -/
theorem Instr.ofFields_offset_unused {f : DecodedFields} (hf : f.opcode = .add ∨ f.opcode = .nand) (offset : Int) :
    Instr.ofFields { f with offset := offset } = Instr.ofFields f := by
  rcases hf with h | h <;> simp only [Instr.ofFields, h]

/-- Clearing the unchecked bits changes no output of the decoder but the offset (R60, R71). -/
theorem decodeFields_clear_unchecked (w : Word) : decodeFields (w &&& 0xFFFFFFE7) =
    { decodeFields w with offset := sext16 (slice (w &&& 0xFFFFFFE7) 15 0) } := by
  have hop := slice_clear_unchecked w 0x01C00000 24 22 (by decide) (by decide)
  have hA := slice_clear_unchecked w 0x00380000 21 19 (by decide) (by decide)
  have hB := slice_clear_unchecked w 0x00070000 18 16 (by decide) (by decide)
  have hD := slice_clear_unchecked w 0x00000007 2 0 (by decide) (by decide)
  simp only [decodeFields, hop, hA, hB, hD]

/-- The unused mask of add and nand does not meet the unchecked bits (R59, R60). -/
theorem unusedMask_clear_unchecked (w : Word) {op : Opcode} (hop : op = .add ∨ op = .nand) :
    w &&& 0xFFFFFFE7 &&& unusedMask op = w &&& unusedMask op := by
  rw [BitVec.and_assoc]
  rcases hop with rfl | rfl <;> rfl

/-- The opcode is add or nand exactly when bits 24 to 22 hold 0 or 1 (R57). -/
theorem opcode_add_or_nand (w : Word) : (decodeFields w).opcode = .add ∨ (decodeFields w).opcode = .nand ↔
    slice w 24 22 = 0 ∨ slice w 24 22 = 1 := by
  rw [decodeFields_opcode_eq, decodeFields_opcode_eq]
  rfl

/-- A word with the opcode add or nand decodes as it does with the unchecked bits cleared (R60). -/
theorem decode_clear_unchecked {w : Word} (hop : slice w 24 22 = 0 ∨ slice w 24 22 = 1) :
    decode (w &&& 0xFFFFFFE7) = decode w := by
  rw [← opcode_add_or_nand] at hop
  have hres := slice_clear_unchecked w 0xFE000000 31 25 (by decide) (by decide)
  rw [decode, hres, decodeFields_clear_unchecked, Instr.ofFields_offset_unused hop, unusedMask_clear_unchecked w hop,
    decode]

/-- An add or nand word with clear reserved and unused bits is an instruction (R60, R62). -/
theorem decodes_of_rtype {w : Word} (hop : slice w 24 22 = 0 ∨ slice w 24 22 = 1) (hres : slice w 31 25 = 0)
    (hunused : slice w 15 5 = 0) : ∃ i, decode w = .ok i := by
  refine ⟨_, decode_eq_ok.mpr ⟨hres, (unusedMask_test w _).mpr ?_, rfl⟩⟩
  rcases (opcode_add_or_nand w).mpr hop with h | h <;> rw [h] <;> exact hunused

/-- The canonical encoding of an instruction whose low 16 bits are a register index has bits 4 and 3 clear (R60). -/
theorem unchecked_of_encode {i : Instr} (hlow : i.low16 < 2 ^ 3) : slice (encode i) 4 3 = 0 := by
  obtain ⟨-, -, -, -, hslice, -⟩ := encode_fields i
  rw [slice_of_low _ (by decide) (by decide), hslice, Nat.div_eq_of_lt hlow, Nat.zero_mod]

/-- Settles O6: words that agree outside the unchecked bits decode as the same word with them cleared. -/
theorem uncheckedBitsAreIgnored : Obligations.UncheckedBitsAreIgnored := by
  refine ⟨fun w w' h hop => ?_, fun w hop hres hunused => ⟨decodes_of_rtype hop hres hunused, fun s => ?_⟩,
    fun a b d => ⟨unchecked_of_encode d.isLt, unchecked_of_encode d.isLt⟩⟩
  · have hclear := fun v => slice_clear_unchecked v 0x01C00000 24 22 (by decide) (by decide)
    have hop' : slice w' 24 22 = 0 ∨ slice w' 24 22 = 1 := by rwa [← hclear w', ← h, hclear w]
    rw [← decode_clear_unchecked hop, h, decode_clear_unchecked hop']
  · rw [Machine.execWord, Machine.execWord, decode_clear_unchecked hop]

/-! ## Words of the spec -/

/-- Settles O7: each word is closed, and the decoder evaluates on it. -/
theorem specEncodingsDecode : Obligations.SpecEncodingsDecode :=
  ⟨rfl, rfl, rfl, rfl, rfl, rfl, rfl, rfl⟩

end Sys2Proof
end

