-- ==== Sys2Proof/Proofs/DecodeAndStep.lean ====
section
/-! PROOFS. The step's own statements (40_decode_and_step.md): it adds nothing to the decoded instruction (R75, R79), and
it counts the instructions that complete (R81). -/

namespace Sys2Proof.Machine

/-- Settles O8: the model's law of an enabled step on a word that decodes. -/
theorem stepRunsTheDecodedInstruction : Obligations.StepRunsTheDecodedInstruction :=
  fun _ _ hg hd => step_of_decode hg hd

/-- Settles O16: a Fatal entry leaves the count as it was, and completion adds one and ends in no Fatal. -/
theorem completedStepsAreCounted : Obligations.CompletedStepsAreCounted := by
  intro s t h
  obtain ⟨hg, ⟨r, rfl⟩ | ⟨i, -, hc⟩⟩ := step_ends h
  · exact ⟨fun hsafe => absurd hsafe (not_notFatal_fatalEntry s r),
      fun _ => State.fatalEntry_instructionsExecuted s r⟩
  · exact ⟨fun _ => hc.count, fun hfatal => absurd (hc.notFatal hg.1) hfatal⟩

end Sys2Proof.Machine
end

