-- ==== Sys2Proof/Proofs/RType.lean ====
section
/-! PROOFS. The R-type statements (41_rtype_add_nand.md): which words are add and nand, what their step does with the
unused bits (R60, R79, R152), and the result with its frame (R91 to R93). -/

namespace Sys2Proof.Machine

/-! ## The words -/

/-- The legal words of an instruction with three operands are its opcode's row of the match table (R61), if the opcode
is that instruction's alone. -/
theorem decodes_iff_legal {α β γ : Type} {mk : α → β → γ → Instr} {op : Opcode}
    (hmk : ∀ i : Instr, i.opcode = op ↔ ∃ x y z, i = mk x y z) (w : Word) :
    (∃ x y z, decode w = .ok (mk x y z)) ↔ w &&& op.legalMask = op.legalMatch := by
  simp only [legal_iff_decodes, hmk]
  constructor
  · rintro ⟨x, y, z, h⟩
    exact ⟨_, h, x, y, z, rfl⟩
  · rintro ⟨_, h, x, y, z, rfl⟩
    exact ⟨x, y, z, h⟩

theorem opcode_eq_add (i : Instr) : i.opcode = .add ↔ ∃ a b d, i = .add a b d := by
  cases i <;> simp [Instr.opcode]

theorem opcode_eq_nand (i : Instr) : i.opcode = .nand ↔ ∃ a b d, i = .nand a b d := by
  cases i <;> simp [Instr.opcode]

/-! ## The step -/

/-- With the reserved bits clear, an enabled step tests the opcode's unused bits and then runs the instruction of the
fields (R75, R78, R79). -/
theorem step_of_reserved_clear {s : State} (hg : s.StepEnabled) (hres : slice (s.memRead s.pc) 31 25 = 0) :
    step s = if s.memRead s.pc &&& unusedMask (decodeFields (s.memRead s.pc)).opcode ≠ 0
      then .next (s.fatalEntry .unusedFieldViolation)
      else exec (Instr.ofFields (decodeFields (s.memRead s.pc))) s := by
  split
  · next hunused => exact step_of_reject hg (decode_eq_unused.mpr ⟨hres, hunused⟩)
  · next hunused => exact step_of_decode hg (decode_eq_ok.mpr ⟨hres, not_not.mp hunused, rfl⟩)

/-- The step on a word with the opcode of add or nand: bits 15 to 5 are tested, bits 4 and 3 are not (R60, R152). -/
theorem step_rtype {s : State} {op : Opcode} (hrtype : op = .add ∨ op = .nand) (hg : s.StepEnabled)
    (hres : slice (s.memRead s.pc) 31 25 = 0) (hcode : slice (s.memRead s.pc) 24 22 = op.code) :
    step s = if slice (s.memRead s.pc) 15 5 ≠ 0 then .next (s.fatalEntry .unusedFieldViolation)
      else exec (Instr.ofFields { decodeFields (s.memRead s.pc) with opcode := op }) s := by
  obtain rfl := (decodeFields_opcode_eq _ op).mpr hcode
  have hmask : s.memRead s.pc &&& unusedMask (decodeFields (s.memRead s.pc)).opcode = 0 ↔
      slice (s.memRead s.pc) 15 5 = 0 := by
    rw [unusedMask_test]
    rcases hrtype with h | h <;> rw [h]
  simp only [step_of_reserved_clear hg hres, ne_eq, hmask]

/-! ## The result -/

/-- What an instruction leaves unchanged that writes one register and goes to the next address (R13, R15, R81). -/
theorem frame_of_writeReg_commit {s t : State} {d : RegIdx} {v : Word}
    (ht : t = (s.writeReg d v).commit (s.pc + 1)) :
    (∀ r, r ≠ d → t.readReg r = s.readReg r) ∧ t.pc = s.pc + 1 ∧ (∀ x, t.memRead x = s.memRead x) ∧
      t.mem = s.mem ∧ t.loadedSize = s.loadedSize ∧ t.instructionsExecuted = s.instructionsExecuted + 1 ∧
      t.status = s.status ∧ t.params = s.params := by
  subst ht
  exact ⟨fun r hr => State.readReg_writeReg_of_ne s d v hr, rfl, fun _ => rfl, rfl, rfl, rfl, rfl, rfl⟩

/-- The register an instruction has just written reads as the value written, after the commit too. -/
theorem readReg_writeReg_commit_self (s : State) (d : RegIdx) (v : Word) (p : Nat) :
    ((s.writeReg d v).commit p).readReg d = v := by simp

/-- The signed value of a complemented word (R92). -/
theorem s32_not (w : Word) : s32 (~~~w) = -(s32 w) - 1 := by
  have := w.isLt
  rw [s32, s32, BitVec.toInt_eq_toNat_cond, BitVec.toInt_eq_toNat_cond, BitVec.toNat_not]
  split <;> split <;> omega

/-- Settles O18: the words are a row of the match table, the step tests bits 15 to 5, and the meaning writes the wrapped
sum alone. -/
theorem addWritesTheWrappedSum : Obligations.AddWritesTheWrappedSum :=
  ⟨decodes_iff_legal opcode_eq_add, fun _ => step_rtype (.inl rfl),
    fun s a b d => ⟨_, exec_add s a b d, readReg_writeReg_commit_self s d _ _, frame_of_writeReg_commit rfl⟩⟩

/-- Settles O19: as for add; the signed value is that of the complement of the conjunction. -/
theorem nandWritesTheNegatedConjunction : Obligations.NandWritesTheNegatedConjunction := by
  refine ⟨decodes_iff_legal opcode_eq_nand, fun _ => step_rtype (.inr rfl), fun s a b d => ?_⟩
  have hresult := readReg_writeReg_commit_self s d (~~~(s.readReg a &&& s.readReg b)) (s.pc + 1)
  exact ⟨_, exec_nand s a b d, hresult, (congrArg s32 hresult).trans (s32_not _), frame_of_writeReg_commit rfl⟩

end Sys2Proof.Machine
end

