-- ==== Sys2Proof/Proofs/LoadStore.lean ====
section
/-! PROOFS. The load and store statements (42_load_store.md): the words of lw and sw, their two address Fatals (R100,
R153, R155), the load (R101), the store (R102), the load after a store (R103), and why the exact address sum faults as
the wrapped one does (R100, D5). -/

namespace Sys2Proof.Machine

/-! ## The words -/

theorem opcode_eq_lw (i : Instr) : i.opcode = .lw ↔ ∃ a b offset, i = .lw a b offset := by
  cases i <;> simp [Instr.opcode]

theorem opcode_eq_sw (i : Instr) : i.opcode = .sw ↔ ∃ a b offset, i = .sw a b offset := by
  cases i <;> simp [Instr.opcode]

/-! ## The address check of a data access -/

/-- A data access below address 0 enters its Fatal, whatever its effect (R153). -/
theorem whenOk_checkAddress_of_neg {s : State} {memSize : Nat} {ea : Int} {effect : Nat → State} (h : ea < 0) :
    whenOk (checkAddress memSize ea) s effect = .next (s.fatalEntry .negativeEffectiveAddress) := by
  rw [checkAddress, if_pos h]
  rfl

/-- A data access at or above the end of memory enters its Fatal, whatever its effect (R155, D4). -/
theorem whenOk_checkAddress_of_memSize_le {s : State} {memSize : Nat} {ea : Int} {effect : Nat → State}
    (h : 0 ≤ ea) (hle : (memSize : Int) ≤ ea) :
    whenOk (checkAddress memSize ea) s effect = .next (s.fatalEntry .addressOutOfRange) := by
  rw [checkAddress, if_neg (not_lt.mpr h), if_pos hle]
  rfl

/-! ## The load -/

/-- A lw from an address inside memory loads the word there and goes to the next address (R101). -/
theorem exec_lw_of_inRange {s : State} {a b : RegIdx} {offset : Int} {ea : Nat}
    (hea : (ea : Int) = s32 (s.readReg a) + offset) (hlt : ea < s.params.memSize) :
    exec (.lw a b offset) s = .next ((s.writeReg b (s.memRead ea)).commit (s.pc + 1)) := by
  have hok : dataAddress s a offset = .ok ea := checkAddress_eq_ok.mpr ⟨hea, hlt⟩
  show whenOk (dataAddress s a offset) s _ = _
  rw [hok]
  rfl

/-- Settles O20: the words are a row of the match table, an address outside memory fails the check, and one inside
leaves a single register write. -/
theorem loadReadsTheAddressedWord : Obligations.LoadReadsTheAddressedWord :=
  ⟨decodes_iff_legal opcode_eq_lw, fun _ _ _ _ => whenOk_checkAddress_of_neg,
    fun _ _ _ _ => whenOk_checkAddress_of_memSize_le,
    fun s _ b _ _ hea hlt => ⟨_, exec_lw_of_inRange hea hlt, readReg_writeReg_commit_self s b _ _,
      frame_of_writeReg_commit rfl⟩⟩

/-! ## The store -/

/-- In a canonical memory, the address an instruction has just stored to reads as the word stored, after the commit
too. -/
theorem memRead_memWrite_commit_self {s : State} (a : Nat) (v : Word) (p : Nat) (h : Memory.wf s.mem) :
    ((s.memWrite a v).commit p).memRead a = v :=
  Memory.read_write_self a v h

/-- Every other address reads as before. -/
theorem memRead_memWrite_commit_of_ne {s : State} {a x : Nat} (v : Word) (p : Nat) (hx : x ≠ a) :
    ((s.memWrite a v).commit p).memRead x = s.memRead x :=
  Memory.read_write_of_ne v hx

/-- Settles O21: as for lw; an address inside memory leaves a single memory write, which raises the high-water mark. -/
theorem storeWritesTheAddressedWord : Obligations.StoreWritesTheAddressedWord :=
  ⟨decodes_iff_legal opcode_eq_sw, fun _ _ _ _ => whenOk_checkAddress_of_neg,
    fun _ _ _ _ => whenOk_checkAddress_of_memSize_le,
    fun _ _ _ _ ea hea hlt => ⟨_, exec_sw_of_inRange hea hlt,
      fun hwf => ⟨memRead_memWrite_commit_self ea _ _ hwf, fun _ hx => memRead_memWrite_commit_of_ne _ _ hx⟩,
      rfl, fun _ => rfl, rfl, rfl, rfl, rfl⟩⟩

/-- Settles O26: the address is inside the memory of the later state too, and the word there is still the one
stored. -/
theorem loadAfterStoreReturnsTheValue : Obligations.LoadAfterStoreReturnsTheValue := by
  intro s a b offset e hwf he hlt
  refine ⟨_, exec_sw_of_inRange he hlt, rfl, fun u a' b' offset' hkept hparams he' => ?_⟩
  have hlt' : e < u.params.memSize := by rw [hparams]; exact hlt
  refine ⟨_, exec_lw_of_inRange he' hlt', ?_⟩
  rw [readReg_writeReg_commit_self, hkept, memRead_memWrite_commit_self e _ _ hwf]

/-! ## The exact and the wrapped address -/

/-- Wrapping a sum that leaves the signed range by at most 2^31 brings it back by 2^32, to the other end of the
range. -/
theorem s32_wrap32_cases {n : Int} (hlo : -2 ^ 32 ≤ n) (hhi : n < 2 ^ 32) :
    s32 (wrap32 n) = n ∨ (n < -2 ^ 31 ∧ s32 (wrap32 n) = n + 2 ^ 32) ∨
      (2 ^ 31 ≤ n ∧ s32 (wrap32 n) = n - 2 ^ 32) := by
  rw [s32, wrap32, BitVec.toInt_ofInt, Int.bmod_def]
  omega

/-- Settles O34: a sum that wraps passes neither check. Exact, it lies below -2^31 or from 2^31 on; wrapped, from
2^31 - 32768 on, the greatest `MEM_SIZE`, or below 0. -/
theorem wrappedAddressFaultsAlike : Obligations.WrappedAddressFaultsAlike := by
  intro p base offset ea hvalid hoffset
  obtain ⟨-, hsize⟩ := hvalid
  obtain ⟨hoff, hoff'⟩ : -32768 ≤ offset ∧ offset ≤ 32767 := by simpa [offsetInRange] using hoffset
  have hbase : -2 ^ 31 ≤ s32 base := BitVec.le_toInt base
  have hbase' : s32 base < 2 ^ 31 := BitVec.toInt_lt
  rw [checkAddress_eq_ok, checkAddress_eq_ok]
  rcases s32_wrap32_cases (n := s32 base + offset) (by omega) (by omega) with h | ⟨hlow, h⟩ | ⟨hhigh, h⟩
  · rw [h]
  · rw [h]; omega
  · rw [h]; omega

end Sys2Proof.Machine
end

