-- ==== Sys2Proof/Proofs/BranchJump.lean ====
section
/-! PROOFS. The control-transfer statements (43_branch_jalr.md): the words of beq and jalr, the Fatal of a negative
target (R154), the branch (R110), the jump with its link (R111), and the transfer past the image (R113). -/

namespace Sys2Proof.Machine

/-! ## The words -/

theorem opcode_eq_beq (i : Instr) : i.opcode = .beq ↔ ∃ a b offset, i = .beq a b offset := by
  cases i <;> simp [Instr.opcode]

theorem opcode_eq_jalr (i : Instr) : i.opcode = .jalr ↔ ∃ a b, i = .jalr a b := by
  cases i <;> simp [Instr.opcode]

/-- The words of jalr are its row of the match table (R61). -/
theorem decodes_jalr_iff_legal (w : Word) :
    (∃ a b, decode w = .ok (.jalr a b)) ↔ w &&& Opcode.jalr.legalMask = Opcode.jalr.legalMatch := by
  simp only [legal_iff_decodes, opcode_eq_jalr]
  constructor
  · rintro ⟨a, b, h⟩
    exact ⟨_, h, a, b, rfl⟩
  · rintro ⟨_, h, a, b, rfl⟩
    exact ⟨a, b, h⟩

/-- An enabled step on a word with clear reserved bits that meets its opcode's unused mask enters the Fatal of R152. -/
theorem step_of_unused_bit {s : State} {op : Opcode} (hg : s.StepEnabled)
    (hres : slice (s.memRead s.pc) 31 25 = 0) (hcode : slice (s.memRead s.pc) 24 22 = op.code)
    (hunused : s.memRead s.pc &&& unusedMask op ≠ 0) : step s = .next (s.fatalEntry .unusedFieldViolation) := by
  obtain rfl := (decodeFields_opcode_eq _ op).mpr hcode
  exact step_of_reject hg (decode_eq_unused.mpr ⟨hres, hunused⟩)

/-! ## A negative target -/

/-- A transfer to a target below 0 enters its Fatal, whatever its effect (R154). -/
theorem whenOk_checkTarget_of_neg {s : State} {target : Int} {effect : Nat → State} (h : target < 0) :
    whenOk (checkTarget target) s effect = .next (s.fatalEntry .negativeTarget) := by
  rw [checkTarget, if_pos h]
  rfl

theorem exec_beq_of_neg {s : State} {a b : RegIdx} {offset : Int} (hab : s.readReg a = s.readReg b)
    (hneg : (s.pc : Int) + 1 + offset < 0) :
    exec (.beq a b offset) s = .next (s.fatalEntry .negativeTarget) := by
  rw [exec_beq, if_pos hab]
  exact whenOk_checkTarget_of_neg hneg

theorem exec_jalr_of_neg {s : State} {a b : RegIdx} (hab : a ≠ b) (hneg : s32 (s.readReg a) < 0) :
    exec (.jalr a b) s = .next (s.fatalEntry .negativeTarget) := by
  have htarget : jumpTarget s a b < 0 := by rwa [jumpTarget, if_neg hab]
  exact whenOk_checkTarget_of_neg htarget

/-! ## The transfer -/

/-- A beq that is not taken to a negative target sets the pc and the count alone (R110). -/
theorem exec_beq_completes {s : State} {a b : RegIdx} {offset : Int}
    (h : ¬ (s.readReg a = s.readReg b ∧ (s.pc : Int) + 1 + offset < 0)) :
    ∃ p : Nat, exec (.beq a b offset) s = .next (s.commit p) ∧
      (s.readReg a = s.readReg b → (p : Int) = (s.pc : Int) + 1 + offset) ∧
      (s.readReg a ≠ s.readReg b → p = s.pc + 1) := by
  rcases exec_beq_cases s a b offset with ⟨hab, hneg, -⟩ | ⟨p, hab, hp, e⟩ | ⟨hab, e⟩
  · exact absurd ⟨hab, hneg⟩ h
  · exact ⟨p, e, fun _ => hp, fun hne => absurd hab hne⟩
  · exact ⟨_, e, fun heq => absurd heq hab, fun _ => rfl⟩

/-- A jalr whose target is not negative writes the link and goes there; with equal registers the target is the link's
own address (R111, D8). -/
theorem exec_jalr_completes {s : State} {a b : RegIdx} (h : a = b ∨ 0 ≤ s32 (s.readReg a)) :
    ∃ p : Nat, exec (.jalr a b) s = .next ((s.writeReg b (linkValue s)).commit p) ∧
      (a ≠ b → (p : Int) = s32 (s.readReg a)) ∧ (a = b → p = s.pc + 1) := by
  rcases exec_jalr_cases s a b with ⟨hab, hneg, -⟩ | ⟨p, hab, hp, e⟩ | ⟨hab, e⟩
  · exact absurd hneg (not_lt.mpr (h.resolve_left hab))
  · exact ⟨p, e, fun _ => hp, fun heq => absurd heq hab⟩
  · exact ⟨_, e, fun hne => absurd hab hne, fun _ => rfl⟩

/-- Settles O22: the words are a row of the match table, a taken branch below 0 fails the check, and any other beq
commits the state as it was. -/
theorem branchGoesToTheTargetWhenEqual : Obligations.BranchGoesToTheTargetWhenEqual := by
  refine ⟨decodes_iff_legal opcode_eq_beq, fun _ _ _ _ => exec_beq_of_neg, fun s a b offset h => ?_⟩
  obtain ⟨p, hexec, htaken, hnext⟩ := exec_beq_completes h
  exact ⟨_, hexec, htaken, hnext, fun _ => rfl, fun _ => rfl, rfl, rfl, rfl, rfl, rfl⟩

/-- Settles O23: the words are a row of the match table, the step tests bits 15 to 0, a jump below 0 fails the check,
and any other jalr leaves a single register write. -/
theorem jumpLinksAndGoesToTheRegister : Obligations.JumpLinksAndGoesToTheRegister := by
  refine ⟨decodes_jalr_iff_legal, fun s hg hres hcode hlow => ?_, fun _ _ _ => exec_jalr_of_neg, fun s a b h => ?_⟩
  · exact step_of_unused_bit (op := .jalr) hg hres hcode (mt (unusedMask_test _ .jalr).mp hlow)
  · obtain ⟨p, hexec, hjump, hself⟩ := exec_jalr_completes h
    exact ⟨_, hexec, readReg_writeReg_commit_self s b _ p, fun r hr => State.readReg_writeReg_of_ne s b _ hr,
      hjump, hself, fun _ => rfl, rfl, rfl, rfl, rfl, rfl⟩

/-! ## Past the image -/

/-- At or past the end of the image no step is made (R130, R134). -/
theorem step_of_loadedSize_le_pc {s : State} (h : s.loadedSize ≤ s.pc) : step s = .fault .runEnded :=
  step_of_not_enabled fun hg => absurd hg.2.1 (not_lt.mpr h)

/-- Settles O33: a target at or past `loadedSize` is not negative, so the transfer completes, and `loadedSize` is as it
was. -/
theorem transfersPastTheImageEndTheRun : Obligations.TransfersPastTheImageEndTheRun := by
  refine ⟨fun s a b offset hab hpast => ?_, fun s a b hab hpast => ?_, fun s a hpast => ?_⟩
  · obtain ⟨p, hexec, htaken, -⟩ := exec_beq_completes (s := s) (a := a) (b := b) (offset := offset) (by omega)
    have hp := htaken hab
    exact ⟨_, hexec, rfl, hp, step_of_loadedSize_le_pc (show s.loadedSize ≤ p by omega)⟩
  · obtain ⟨p, hexec, hjump, -⟩ := exec_jalr_completes (s := s) (a := a) (b := b) (.inr (by omega))
    have hp := hjump hab
    exact ⟨_, hexec, rfl, hp, step_of_loadedSize_le_pc (show s.loadedSize ≤ p by omega)⟩
  · obtain ⟨p, hexec, -, hself⟩ := exec_jalr_completes (s := s) (a := a) (b := a) (.inl rfl)
    have hp := hself rfl
    exact ⟨_, hexec, rfl, hp, step_of_loadedSize_le_pc (show s.loadedSize ≤ p by omega)⟩

end Sys2Proof.Machine
end

