-- ==== Sys2Proof/Proofs/HaltNoop.lean ====
section
/-! PROOFS. The statements of halt and noop (44_halt_noop.md): the one legal word of each, the Fatal of the other words
of its opcode (R152), the two effects (R120, R121), and that nothing but the halt word halts (R74, R120). -/

namespace Sys2Proof

/-! ## The words -/

/-- But for add and nand, whose encodings have unchecked bits (R60), an instruction's canonical encoding is its one
word (R65). -/
theorem decode_eq_ok_iff_eq_encode {i : Instr} (hi : i.wellFormed = true)
    (hop : ¬ (i.opcode = .add ∨ i.opcode = .nand)) (w : Word) : decode w = .ok i ↔ w = encode i := by
  constructor
  · intro h
    obtain ⟨-, hencode⟩ := decodedWordIsItsCanonicalEncoding w i h
    rw [if_neg hop] at hencode
    exact hencode.symm
  · rintro rfl
    exact decode_encode hi

theorem decode_eq_halt (w : Word) : decode w = .ok .halt ↔ w = 0x01800000 :=
  decode_eq_ok_iff_eq_encode rfl (by decide) w

theorem decode_eq_noop (w : Word) : decode w = .ok .noop ↔ w = 0x01C00000 :=
  decode_eq_ok_iff_eq_encode rfl (by decide) w

end Sys2Proof

namespace Sys2Proof.Machine

/-! ## The status HALTED -/

/-- After a halt no step is made (R130, R133). -/
theorem step_of_halted {s : State} (h : s.status = .halted) : step s = .fault .runEnded :=
  step_of_not_enabled fun hg => nomatch h.symm.trans hg.1

/-- Of the instructions that complete in a running machine, halt alone leaves HALTED (R74, R120). -/
theorem Completes.halted_iff {i : Instr} {s t : State} (hc : Completes i s t) (hrun : s.status = .run) :
    t.status = .halted ↔ i = .halt := by
  rw [hc.status, hrun]
  split
  · next hi => exact iff_of_true rfl hi
  · next hi => exact iff_of_false nofun hi

/-- Settles O17: a Fatal entry does not leave HALTED, of the instructions that complete halt alone does, and the halt
word always runs halt. -/
theorem onlyTheHaltWordHalts : Obligations.OnlyTheHaltWordHalts := by
  intro s t h
  rw [← decode_eq_halt]
  constructor
  · intro hhalted
    obtain ⟨hg, ⟨r, rfl⟩ | ⟨i, hd, hc⟩⟩ := step_ends h
    · cases hhalted
    · obtain rfl := (hc.halted_iff hg.1).mp hhalted
      exact hd
  · intro hd
    obtain ⟨hg, -⟩ := step_next_cases h
    rw [step_of_decode hg hd, exec_halt] at h
    cases h
    rfl

/-! ## The two instructions -/

/-- Settles O24: the word is the canonical encoding, the step tests bits 21 to 0, and the meaning commits to the next
address and leaves HALTED, which closes the gate. -/
theorem haltEndsTheRunNormally : Obligations.HaltEndsTheRunNormally := by
  refine ⟨decode_eq_halt, fun s hg hres hcode hlow => ?_, fun s => ?_⟩
  · exact step_of_unused_bit (op := .halt) hg hres hcode (mt (unusedMask_test _ .halt).mp hlow)
  · exact ⟨_, exec_halt s, rfl, rfl, fun _ => rfl, fun _ => rfl, rfl, rfl, rfl, rfl, rfl, step_of_halted rfl⟩

/-- Settles O25: the word is the canonical encoding, the step tests bits 21 to 0, and the meaning commits to the next
address. -/
theorem noopOnlyAdvances : Obligations.NoopOnlyAdvances := by
  refine ⟨decode_eq_noop, fun s hg hres hcode hlow => ?_, fun s => ?_⟩
  · exact step_of_unused_bit (op := .noop) hg hres hcode (mt (unusedMask_test _ .noop).mp hlow)
  · exact ⟨_, exec_noop s, rfl, fun _ => rfl, fun _ => rfl, rfl, rfl, rfl, rfl, rfl⟩

end Sys2Proof.Machine
end

