-- ==== Sys2Proof/Proofs/RunControl.lean ====
section
/-! PROOFS. Run control (45_run_control.md): the gate decides whether a step is made (R130, R133), and a run ends within
its ceiling (R135), for one of the four causes of R134, which the report shows (R136). -/

namespace Sys2Proof.Machine

/-! ## The gate -/

/-- Settles O9: where the gate holds there is a next state, and where it does not there is the stop. -/
theorem stepIsMadeExactlyWhenTheGateHolds : Obligations.StepIsMadeExactlyWhenTheGateHolds := by
  intro s
  by_cases hg : s.StepEnabled
  · obtain ⟨t, e⟩ := step_answers_next hg
    rw [e]
    exact ⟨iff_of_true ⟨t, rfl⟩ hg, iff_of_false nofun (not_not_intro hg), nofun⟩
  · rw [step_of_not_enabled hg]
    exact ⟨iff_of_false nofun hg, iff_of_true rfl hg, nofun⟩

/-! ## The length of a run -/

/-- A run that is still going has counted every one of its steps: the one kind of step that is not counted, a Fatal
(R81), ends the run. -/
theorem runFor_count_of_enabled {n : Nat} {s : State} (h : (runFor n s).StepEnabled) :
    (runFor n s).instructionsExecuted = s.instructionsExecuted + n := by
  induction n with
  | zero => rfl
  | succ n ih =>
    rw [runFor_succ] at h ⊢
    by_cases hg : (runFor n s).StepEnabled
    · obtain ⟨t, e⟩ := step_answers_next hg
      rw [runFor_of_step e, runFor] at h ⊢
      have hsafe : t.NotFatal := fun r hr => nomatch hr.symm.trans h.1
      rw [(completedStepsAreCounted _ t e).1 hsafe, ih hg, Nat.add_assoc]
    · rw [runFor_of_not_enabled hg] at h
      exact absurd h hg

theorem runFor_params (n : Nat) (s : State) : (runFor n s).params = s.params :=
  runFor_keeps (P := fun u => u.params = s.params)
    (fun u t hu e => (stepKeepsTheRunParameters u t e).trans hu) n rfl

/-- With the steps left under the ceiling made, the run has ended (R135). -/
theorem runFor_ended {n : Nat} {s : State} (h : s.params.ceiling ≤ s.instructionsExecuted + n) :
    ¬ (runFor n s).StepEnabled := by
  intro hg
  have hbelow := hg.2.2
  rw [runFor_count_of_enabled hg, runFor_params] at hbelow
  omega

/-- Past its end a run stays in its final state (R133). -/
theorem runFor_eq_of_ended {n k : Nat} {s : State} (h : ¬ (runFor n s).StepEnabled) (hk : n ≤ k) :
    runFor k s = runFor n s := by
  induction hk with
  | refl => rfl
  | step _ ih => rw [runFor_succ, ih, runFor_of_not_enabled h]

theorem runToEnd_ended (s : State) : ¬ (runToEnd s).StepEnabled :=
  runFor_ended (Nat.le_add_left ..)

/-- Settles O43: the count of a boot starts at 0, so a run still going after `k` steps has counted `k`, and after
`CEILING` steps none is still going. -/
theorem everyRunEndsWithinTheCeiling : Obligations.EveryRunEndsWithinTheCeiling := by
  intro p image
  refine ⟨fun k => ?_, fun k hk => ?_⟩
  · rw [← imp_iff_not_or]
    exact fun hg => (runFor_count_of_enabled hg).trans (Nat.zero_add k)
  · have hfinal : runFor k (State.boot p image) = runToEnd (State.boot p image) :=
      runFor_eq_of_ended (runToEnd_ended _) hk
    exact ⟨hfinal ▸ runToEnd_ended _, hfinal⟩

/-! ## The end of a run -/

/-- A state in which no step is enabled has one of the four causes of R134. -/
theorem cause_of_not_enabled {s : State} (h : ¬ s.StepEnabled) :
    s.status = .halted ∨ (∃ r, s.status = .fatal r) ∨ s.PcExhausted ∨ s.CeilingReached := by
  cases hs : s.status with
  | halted => exact .inl rfl
  | fatal r => exact .inr (.inl ⟨r, rfl⟩)
  | run =>
    by_cases hpc : s.pc < s.loadedSize
    · exact .inr (.inr (.inr ⟨hs, not_lt.mp fun hc => h ⟨hs, hpc, hc⟩⟩))
    · exact .inr (.inr (.inl ⟨hs, not_lt.mp hpc⟩))

/-- The report is true of halting (R136). -/
theorem report_haltedNormally (s : State) : s.report.haltedNormally = true ↔ s.status = .halted :=
  decide_eq_true_iff

/-- The FATAL interface shows the reason of the status, and no reason for the other two (R150). -/
theorem fatalReason_eq_some {s : State} {r : FatalReason} : s.fatalReason = some r ↔ s.status = .fatal r := by
  unfold State.fatalReason
  cases s.status <;> simp

/-- Settles O44: the final state has one of the four causes, and by the invariant its count is at most the ceiling, so
a ceiling that is reached is reached exactly. -/
theorem runEndsForOneOfTheFourCauses : Obligations.RunEndsForOneOfTheFourCauses := by
  intro p image f hfit hf
  have hparams : f.params = p := by rw [hf, runToEnd, runFor_params]; rfl
  have hinv : f.Inv := hf ▸ reachableStatesMeetTheInvariant p image _ hfit
  have hend : ¬ f.StepEnabled := hf ▸ runToEnd_ended _
  have hexact (hc : f.CeilingReached) : f.instructionsExecuted = p.ceiling :=
    hparams ▸ hinv.countBounded.antisymm hc.2
  refine ⟨?_, report_haltedNormally f, rfl, fun _ => fatalReason_eq_some⟩
  rcases cause_of_not_enabled hend with hhalt | hfatal | hpast | hc
  · exact .inl hhalt
  · exact .inr (.inl hfatal)
  · exact .inr (.inr (.inl hpast))
  · exact .inr (.inr (.inr ⟨hc, hexact hc⟩))

end Sys2Proof.Machine
end

