-- ==== Sys2Proof/Proofs/Exceptions.lean ====
section
/-! PROOFS. The Fatal statements (60_exceptions.md): what a Fatal step leaves (R158), which words raise a Fatal (R151,
R152), which instructions raise one and when (R153 to R155), and that nothing raises UnknownOpcode (R156). -/

namespace Sys2Proof.Machine

/-! ## What a Fatal step leaves -/

/-- After a Fatal no step is made (R130, R133). -/
theorem step_fatalEntry (s : State) (r : FatalReason) : step (s.fatalEntry r) = .fault .runEnded :=
  step_of_not_enabled fun hg => nomatch hg.1

/-- Settles O12: a step is a Fatal entry or a completion, and a completion ends in no Fatal. -/
theorem fatalStepsChangeOnlyTheStatus : Obligations.FatalStepsChangeOnlyTheStatus := by
  intro s t r h hr
  obtain ⟨hg, ⟨q, rfl⟩ | ⟨i, -, hc⟩⟩ := step_ends h
  · cases hr
    exact ⟨rfl, step_fatalEntry s r⟩
  · exact absurd hr (hc.notFatal hg.1 r)

/-! ## The Fatals of the instructions -/

/-- When instruction `i` in state `s` fails the test of reason `r` (R153 to R155). The reasons of an encoding and
UnknownOpcode have no test in an instruction. -/
def FailsTest (r : FatalReason) (i : Instr) (s : State) : Prop :=
  match r with
  | .negativeEffectiveAddress =>
    ∃ a b offset, (i = .lw a b offset ∨ i = .sw a b offset) ∧ s32 (s.readReg a) + offset < 0
  | .addressOutOfRange =>
    ∃ a b offset, (i = .lw a b offset ∨ i = .sw a b offset) ∧
      0 ≤ s32 (s.readReg a) + offset ∧ (s.params.memSize : Int) ≤ s32 (s.readReg a) + offset
  | .negativeTarget =>
    (∃ a b offset, i = .beq a b offset ∧ s.readReg a = s.readReg b ∧ (s.pc : Int) + 1 + offset < 0) ∨
      ∃ a b, i = .jalr a b ∧ a ≠ b ∧ s32 (s.readReg a) < 0
  | .malformedEncoding | .unusedFieldViolation | .unknownOpcode => False

/-- An instruction that fails a test enters the Fatal of that test (R80, R158). -/
theorem exec_of_failsTest {r : FatalReason} {i : Instr} {s : State} (h : FailsTest r i s) :
    exec i s = .next (s.fatalEntry r) := by
  cases r with
  | negativeEffectiveAddress =>
    obtain ⟨a, b, offset, rfl | rfl, hneg⟩ := h
    · exact whenOk_checkAddress_of_neg hneg
    · exact whenOk_checkAddress_of_neg hneg
  | addressOutOfRange =>
    obtain ⟨a, b, offset, rfl | rfl, hlo, hhi⟩ := h
    · exact whenOk_checkAddress_of_memSize_le hlo hhi
    · exact whenOk_checkAddress_of_memSize_le hlo hhi
  | negativeTarget =>
    obtain ⟨a, b, offset, rfl, hab, hneg⟩ | ⟨a, b, rfl, hab, hneg⟩ := h
    · exact exec_beq_of_neg hab hneg
    · exact exec_jalr_of_neg hab hneg
  | malformedEncoding | unusedFieldViolation | unknownOpcode => exact h.elim

/-- In a running machine an instruction ends in a Fatal only by failing that Fatal's test. -/
theorem failsTest_of_exec {r : FatalReason} {i : Instr} {s t : State} (hrun : s.status = .run)
    (h : exec i s = .next t) (hr : t.status = .fatal r) : FailsTest r i s := by
  rcases exec_status_cases h with ⟨hkeep, -⟩ | ⟨hhalt, -⟩ | ⟨-, ⟨rfl, htest⟩ | ⟨rfl, htest⟩ | ⟨rfl, htest⟩⟩
  · exact nomatch hr.symm.trans (hkeep.trans hrun)
  · exact nomatch hr.symm.trans hhalt
  all_goals
    cases hr
    exact htest

/-- In a running machine an instruction ends in a Fatal exactly when it fails that Fatal's test. -/
theorem exec_fatal_iff (r : FatalReason) {i : Instr} {s : State} (hrun : s.status = .run) :
    (∃ t, exec i s = .next t ∧ t.status = .fatal r) ↔ FailsTest r i s :=
  ⟨fun ⟨_, h, hr⟩ => failsTest_of_exec hrun h hr, fun h => ⟨_, exec_of_failsTest h, rfl⟩⟩

/-- Settles O14: the tests of the two address reasons. -/
theorem addressFatalsAreRaisedByLoadsAndStoresOutOfRange :
    Obligations.AddressFatalsAreRaisedByLoadsAndStoresOutOfRange :=
  fun _ _ hrun => ⟨exec_fatal_iff .negativeEffectiveAddress hrun, exec_fatal_iff .addressOutOfRange hrun⟩

/-- Settles O15: the test of NegativeTarget. -/
theorem negativeTargetsAreFatal : Obligations.NegativeTargetsAreFatal :=
  fun _ _ hrun => exec_fatal_iff .negativeTarget hrun

/-! ## The Fatals of the words -/

theorem rejectReason_injective : Function.Injective rejectReason
  | .malformedEncoding, .malformedEncoding, _ => rfl
  | .unusedFieldViolation, .unusedFieldViolation, _ => rfl

/-- A step ends in the Fatal of an encoding test exactly when the decoder rejects the word by that test: no instruction
raises it (R151, R152). -/
theorem step_eq_reject_iff {s : State} (hg : s.StepEnabled) (e : Reject) :
    step s = .next (s.fatalEntry (rejectReason e)) ↔ decode (s.memRead s.pc) = .error e := by
  refine ⟨fun h => ?_, step_of_reject hg⟩
  obtain ⟨-, ⟨e', hd, heq⟩ | ⟨i, -, hexec⟩⟩ := step_next_cases h
  · have hreason : rejectReason e = rejectReason e' := Status.fatal.inj (congrArg State.status heq)
    rw [hd, rejectReason_injective hreason]
  · have htest : FailsTest (rejectReason e) i s := failsTest_of_exec hg.1 hexec rfl
    cases e <;> exact htest.elim

/-- Settles O10: the decoder makes the reserved-bit test first. -/
theorem reservedBitsAreFatal : Obligations.ReservedBitsAreFatal :=
  fun _ hg => (step_eq_reject_iff hg .malformedEncoding).trans decode_eq_malformed

/-- The words that meet their opcode's unused mask, by the opcode field and the bit ranges of R59. -/
theorem unused_bit_iff (w : Word) : w &&& unusedMask (decodeFields w).opcode ≠ 0 ↔
    ((slice w 24 22 = 0 ∨ slice w 24 22 = 1) ∧ slice w 15 5 ≠ 0) ∨
      (slice w 24 22 = 5 ∧ slice w 15 0 ≠ 0) ∨
      ((slice w 24 22 = 6 ∨ slice w 24 22 = 7) ∧ slice w 21 0 ≠ 0) := by
  rw [ne_eq, unusedMask_test, ← decodeFields_opcode_code]
  cases (decodeFields w).opcode <;> simp [Opcode.code]

/-- Settles O11: the decoder makes the unused-bit test where the reserved bits are clear. -/
theorem unusedBitsAreFatal : Obligations.UnusedBitsAreFatal :=
  fun s hg => (step_eq_reject_iff hg .unusedFieldViolation).trans
    (decode_eq_unused.trans (and_congr_right' (unused_bit_iff (s.memRead s.pc))))

/-- Settles O13: neither the decoder nor a test of an instruction has this reason. -/
theorem unknownOpcodeIsNeverRaised : Obligations.UnknownOpcodeIsNeverRaised := by
  intro s t h hr
  obtain ⟨hg, ⟨e, -, rfl⟩ | ⟨i, -, hexec⟩⟩ := step_next_cases h
  · cases e <;> cases hr
  · exact failsTest_of_exec hg.1 hexec hr

end Sys2Proof.Machine
end

