-- ==== Sys2Proof/Proofs/Reset.lean ====
section
/-! PROOFS. The first step of a run (70_reset_and_hazards.md R182). -/

namespace Sys2Proof.Machine

/-- The gate is open at a boot exactly when the image is not empty and the ceiling is above 0 (R27, R130; D3, log 4). -/
theorem State.boot_stepEnabled_iff {p : Params} {image : List Word} :
    (State.boot p image).StepEnabled ↔ image ≠ [] ∧ 0 < p.ceiling := by
  rw [← List.length_pos_iff]
  exact and_iff_right rfl

/-- The fetch of a boot, at pc 0, is the first word of the image (R76, R181). -/
theorem State.boot_fetch_cons (p : Params) (w : Word) (image : List Word) :
    (State.boot p (w :: image)).memRead (State.boot p (w :: image)).pc = w :=
  State.boot_memRead p (w :: image) 0

/-- Settles O41: at the boot the gate is open and the fetch is the image's first word. That the image fits is not
needed: the load puts its words from address 0 on whatever `MEM_SIZE` is. -/
theorem firstStepRunsWordZero : Obligations.FirstStepRunsWordZero := by
  intro p w image _ hceiling
  have henabled : (State.boot p (w :: image)).StepEnabled :=
    State.boot_stepEnabled_iff.mpr ⟨List.cons_ne_nil w image, hceiling⟩
  rw [step_eq_execWord henabled, State.boot_fetch_cons]

end Sys2Proof.Machine
end
